-- ==== Sys2Proof/Word.lean ====
section
/-! DEFINITION. The word types of the IR modulation encoder: bytes of the ScanCode span, symbol words, and the
symbol as the 4-tuple of 00_scope.md R12. -/

namespace Sys2Proof

/-- A byte of the ScanCode span `SC` (20_memory.md R50). -/
abbrev Byte := BitVec 8

/-- A symbol word (30_encoding.md R70), and the contents of a primitive register (10_state.md R25, R26). -/
abbrev Word := BitVec 32

/-- A duration field of `DUR_W` = 15 bits (30_encoding.md R72). -/
abbrev Duration := BitVec 15

/-- A level: 1 is high, 0 is low (30_encoding.md R71). -/
abbrev Level := BitVec 1

/-- The ScanCode span `SC[0..15]` (20_memory.md R50, R51). -/
abbrev ScanCode := Vector Byte 16

/-- A symbol `(l0, d0, l1, d1)`: two segments, each a level and a duration (00_scope.md R12). -/
structure Symbol where
  l0 : Level
  d0 : Duration
  l1 : Level
  d1 : Duration
  deriving DecidableEq, Repr

end Sys2Proof
end

