-- ==== Sys2Proof/Config.lean ====
section
/-! DEFINITION. The named constants of 00_scope.md R9, and the free values of what the spec leaves unspecified. -/

namespace Sys2Proof

/-- How a 32-bit ScanCode field is laid out as four bytes (20_memory.md R51). -/
inductive ByteOrder
  | le
  | be
  deriving DecidableEq, Repr

/-- `DUR_W`: width in bits of a duration field (R9, R72). -/
abbrev Config.durW : Nat := 15

/-- `DUR_MAX` = `2^DUR_W - 1`: the largest duration of one segment (R9, R72). -/
abbrev Config.durMax : Nat := 2 ^ Config.durW - 1

/-- `END_OF_SEQUENCE`: the duration value that marks "hold until next transmission" (R9, R72).
PRESUMED (the spec's G2), log entry 10. -/
abbrev Config.endOfSequence : Duration := 0

/-- `CAP_W`: width of the capacity operand (R9). -/
abbrev Config.capW : Nat := 16

/-- `CNT_W`: width of the symbols-written result (R9). -/
abbrev Config.cntW : Nat := 8

/-- `FIELD_BYTE_ORDER` (R9, 20_memory.md R51), the value the spec takes. PRESUMED (the spec's G4), log entry 8. -/
def Config.fieldByteOrder : ByteOrder := .le

/-- `TICK`, the physical length of one tick: OPEN (R9), read by no rule. Log entry 15. -/
opaque Config.tick : Nat

/-- The free values of the registers the spec leaves unspecified after hardware reset and after DESTROY
(10_state.md R34, 44_host_operations.md R174): nothing constrains them. DESIGN CHOICE, log entry 4. -/
opaque Config.freeWord : Nat → Word

end Sys2Proof
end

