-- ==== Sys2Proof/Syntax.lean ====
section
/-! DEFINITION. The instructions: one constructor per row of spec/opcode_table.json, four host operations and twelve
frame steps. -/

namespace Sys2Proof

/-- The record `TimingTable` that NEW is given (00_scope.md R8): durations in ticks, natural numbers, tested as given
before they are narrowed (43_frame_steps.md R163). -/
structure TimingTable where
  tLeadH : Nat
  tLeadL : Nat
  tBit0H : Nat
  tBit0L : Nat
  tBit1H : Nat
  tBit1L : Nat
  tSgapH : Nat
  tSgapL : Nat
  tLgaH : Nat
  tLgaL : Nat
  tLgbL0 : Nat
  tLgbL1 : Nat
  tTermH : Nat
  tLgapTotal : Nat
  deriving DecidableEq, Repr

/-- The instructions of the block (00_scope.md R1): the four host operations (44_host_operations.md) and the twelve
frame steps (43_frame_steps.md). `cap` is the unsigned number of `CAP_W` bits that 30_encoding.md R81 uses as it is;
`Instr.wellFormed` bounds it. -/
inductive Instr
  | new (cfg : TimingTable)
  | encode (sc : ScanCode) (cap : Nat)
  | reset
  | destroy
  | leading1
  | data1Bits
  | data1Suffix
  | shortGap1
  | data2Bits
  | longGap
  | leading2
  | data3Bits
  | data3Suffix
  | shortGap2
  | data4Bits
  | terminator
  deriving DecidableEq, Repr

end Sys2Proof
end

