-- ==== Sys2Proof/WellFormed.lean ====
section
/-! DEFINITION. Which instructions have an encoding. -/

namespace Sys2Proof

/-- The instruction has an encoding: the capacity fits its field of `CAP_W` bits (30_encoding.md R74, R81). The other
operands have every value of their type: `cfg` is a record of natural numbers (00_scope.md R8), `sc` sixteen bytes. -/
def Instr.wellFormed : Instr → Bool
  | .encode _ cap => decide (cap < 2 ^ Config.capW)
  | .new _ | .reset | .destroy
  | .leading1 | .data1Bits | .data1Suffix | .shortGap1 | .data2Bits | .longGap
  | .leading2 | .data3Bits | .data3Suffix | .shortGap2 | .data4Bits | .terminator => true

end Sys2Proof
end

