-- ==== Sys2Proof/Decode.lean ====
section
/-! DEFINITION. The two decoders of the block, the encoder of an instruction, and the reading of a word of the opcode
table. A host operation is selected by the 2-bit `op` of the command record (30_encoding.md R74), a frame step by the
4-bit progress cursor (R78). -/

namespace Sys2Proof

/-- The command record `CMD` (30_encoding.md R74). -/
structure Cmd where
  op : BitVec 2
  cfg : TimingTable
  sc : ScanCode
  cap : BitVec 16
  deriving DecidableEq, Repr

/-- What selects an instruction: a command of the host, or the progress cursor. -/
inductive Fetched
  | cmd (c : Cmd)
  | step (cur : BitVec 4)
  deriving DecidableEq, Repr

/-- Why a fetched encoding names no instruction. -/
inductive Reject
  /-- `cur` 12 to 15 is reserved (30_encoding.md R80); no command is rejected, all four `op` codes are assigned. -/
  | reservedStep (cur : BitVec 4)
  deriving DecidableEq, Repr

/-- The operand fields of zeros, for the operations that ignore them. -/
def zeroTable : TimingTable := ⟨0, 0, 0, 0, 0, 0, 0, 0, 0, 0, 0, 0, 0, 0⟩

/-- Sixteen bytes of zeros. -/
def zeroScanCode : ScanCode := #v[0, 0, 0, 0, 0, 0, 0, 0, 0, 0, 0, 0, 0, 0, 0, 0]

/-- The command decoder: total, and blind to the operand fields the operation does not use (30_encoding.md R74, R80). -/
def decodeCmd (c : Cmd) : Instr :=
  match c.op.toNat with
  | 0 => .new c.cfg
  | 1 => .encode c.sc c.cap.toNat
  | 2 => .reset
  | _ => .destroy

/-- The step selector: `STEP[cur]`, 12 to 15 reserved (30_encoding.md R78, R80). -/
def decodeStep (cur : BitVec 4) : Option Instr :=
  match cur.toNat with
  | 0 => some .leading1
  | 1 => some .data1Bits
  | 2 => some .data1Suffix
  | 3 => some .shortGap1
  | 4 => some .data2Bits
  | 5 => some .longGap
  | 6 => some .leading2
  | 7 => some .data3Bits
  | 8 => some .data3Suffix
  | 9 => some .shortGap2
  | 10 => some .data4Bits
  | 11 => some .terminator
  | _ => none

/-- The decoder: total, rejecting by name (30_encoding.md R80). -/
def decode : Fetched → Except Reject Instr
  | .cmd c => .ok (decodeCmd c)
  | .step cur =>
    match decodeStep cur with
    | some i => .ok i
    | none => .error (.reservedStep cur)

/-- The encoder, from the tables of 30_encoding.md R74 and R78. -/
def encode : Instr → Fetched
  | .new cfg => .cmd ⟨0b00, cfg, zeroScanCode, 0⟩
  | .encode sc cap => .cmd ⟨0b01, zeroTable, sc, BitVec.ofNat 16 cap⟩
  | .reset => .cmd ⟨0b10, zeroTable, zeroScanCode, 0⟩
  | .destroy => .cmd ⟨0b11, zeroTable, zeroScanCode, 0⟩
  | .leading1 => .step 0
  | .data1Bits => .step 1
  | .data1Suffix => .step 2
  | .shortGap1 => .step 3
  | .data2Bits => .step 4
  | .longGap => .step 5
  | .leading2 => .step 6
  | .data3Bits => .step 7
  | .data3Suffix => .step 8
  | .shortGap2 => .step 9
  | .data4Bits => .step 10
  | .terminator => .step 11

/-- The selector field of a fetched encoding: `op` for a command, `cur` for a step. It is what spec/opcode_table.json
gives its match and mask over. -/
def Fetched.selector : Fetched → Nat
  | .cmd c => c.op.toNat
  | .step cur => cur.toNat

/-- A word of spec/opcode_table.json as a fetched encoding, its operand fields zeros. The table numbers two selector
spaces, `op` (2 bits) and `cur` (4 bits), that overlap: with up to 2 bits the word is an `op`, with 3 or 4 a `cur`;
rounded up to a whole byte the two cannot be told apart, and 0 to 3 are read as `op`, 4 and above as `cur`.
DESIGN CHOICE, log entry 14. -/
def tableFetch (nbits w : Nat) : Option Fetched :=
  if nbits ≤ 2 then
    if w < 4 then some (.cmd ⟨BitVec.ofNat 2 w, zeroTable, zeroScanCode, 0⟩) else none
  else if nbits ≤ 4 then
    if w < 16 then some (.step (BitVec.ofNat 4 w)) else none
  else if w < 4 then some (.cmd ⟨BitVec.ofNat 2 w, zeroTable, zeroScanCode, 0⟩)
  else if w < 16 then some (.step (BitVec.ofNat 4 w))
  else none

/-- The instruction the decoder reads from a word of spec/opcode_table.json. -/
def decodeTableWord (nbits w : Nat) : Option Instr :=
  match tableFetch nbits w with
  | some f => (decode f).toOption
  | none => none

end Sys2Proof
end

