-- ==== Sys2Proof/Machine/State.lean ====
section
/-! DEFINITION. The state of the encoder (10_state.md), its response, the host's events, and the state after hardware
reset. -/

namespace Sys2Proof.Machine

/-- The error code of a response (30_encoding.md R77). -/
inductive Err
  | ok
  | configError
  /-- Reserved: no operation answers it (60_exceptions.md R194). -/
  | resourceError
  | contractViolation
  deriving DecidableEq, Repr

/-- The status flags of one ENCODE, a set of `complete` and `buffer_full` (30_encoding.md R76). -/
structure Status where
  complete : Bool
  bufferFull : Bool
  deriving DecidableEq, Repr

/-- The response `RSP` (30_encoding.md R75). Its field `n` is `Response.n`, the number of words of `dst`. -/
structure Response where
  err : Err
  status : Status
  dst : List Word
  deriving DecidableEq, Repr

/-- What a sub-encoder reports: exactly one of the two (00_scope.md R13, 41_bit_encoder.md R122). -/
inductive SubStatus
  | complete
  | full
  deriving DecidableEq, Repr

/-- The two formats of a frame step (30_encoding.md R79). -/
inductive StepKind
  | lit
  | bits
  deriving DecidableEq, Repr

/-- A step descriptor `(kind, a, N)` (30_encoding.md R79). -/
structure StepDesc where
  kind : StepKind
  a : BitVec 3
  len : BitVec 2
  deriving DecidableEq, Repr

/-- The timing constant table `tt` (10_state.md R27): thirteen durations of 15 bits, the total of 17 bits. -/
structure TimingRegs where
  tLeadH : Duration
  tLeadL : Duration
  tBit0H : Duration
  tBit0L : Duration
  tBit1H : Duration
  tBit1L : Duration
  tSgapH : Duration
  tSgapL : Duration
  tLgaH : Duration
  tLgaL : Duration
  tLgbL0 : Duration
  tLgbL1 : Duration
  tTermH : Duration
  tLgapTotal : BitVec 17
  deriving DecidableEq, Repr

/-- What the outside world presents to the encoder: a command (30_encoding.md R74) or the hardware reset input
(70_reset_and_hazards.md R210). -/
inductive HostEvent
  | cmd (c : Cmd)
  | hwReset
  deriving DecidableEq, Repr

/-- The state. `built` to `tt` is the encoder's (10_state.md R20 to R29). `sc`, `rem` and `rsp` are the operands and the
response of the operation in progress or, between operations, of the last one (R31; log entries 6 and 7). `busy`,
`inputs` and `freeCount` are the model's own (log entries 1, 2 and 5). -/
structure State where
  /-- An instance exists (R28). -/
  built : Bool
  /-- The sticky fault latch (R29). -/
  fault : Bool
  /-- The progress cursor (R20). -/
  cur : BitVec 4
  /-- The bit-sequence sub-encoder's cursor (R21). -/
  bcur : BitVec 5
  /-- The literal-symbol sub-encoder's cursor (R22). -/
  lcur : BitVec 2
  /-- The symbol primitive registers LEAD, TERM, SGAP, LGAP[0], LGAP[1], SUF[0], SUF[1], SUF[2] (R25). -/
  x : Vector Word 8
  /-- The bit-0 shape (R26). -/
  bit0 : Word
  /-- The bit-1 shape (R26). -/
  bit1 : Word
  /-- The timing constant table (R27). -/
  tt : TimingRegs
  /-- The ScanCode presented with the ENCODE (20_memory.md R50, R53). -/
  sc : ScanCode
  /-- The remaining capacity of the ENCODE call (00_scope.md R11). -/
  rem : Nat
  /-- The response (30_encoding.md R75). -/
  rsp : Response
  /-- An ENCODE call is between two of its frame steps. -/
  busy : Bool
  /-- What the host will present, the next event first. -/
  inputs : List HostEvent
  /-- How many free values have been drawn. -/
  freeCount : Nat
  deriving DecidableEq, Repr

/-- Why the machine stops: never. An error of the block is a value of its response and the sticky `fault` latch
(60_exceptions.md R190, R193), so a step that raises has a next state. No constructor: nothing raises a fault, which is
safe, since no claim can be proved from a stop. Log entry 3. -/
inductive Fault
  deriving DecidableEq, Repr

/-- Why a step has no meaning. -/
inductive Refusal
  /-- An arm of `exec` for an instruction without a meaning yet. No arm raises it: every row of the opcode table has its
  meaning. Safe: a refusal ends the run. -/
  | notModelled (mnemonic : String)
  deriving DecidableEq, Repr

/-- The table registers holding the free values from the `k`-th on (10_state.md R34 "unspecified"). Log entry 4. -/
def TimingRegs.unspecified (k : Nat) : TimingRegs where
  tLeadH := (Config.freeWord k).setWidth 15
  tLeadL := (Config.freeWord (k + 1)).setWidth 15
  tBit0H := (Config.freeWord (k + 2)).setWidth 15
  tBit0L := (Config.freeWord (k + 3)).setWidth 15
  tBit1H := (Config.freeWord (k + 4)).setWidth 15
  tBit1L := (Config.freeWord (k + 5)).setWidth 15
  tSgapH := (Config.freeWord (k + 6)).setWidth 15
  tSgapL := (Config.freeWord (k + 7)).setWidth 15
  tLgaH := (Config.freeWord (k + 8)).setWidth 15
  tLgaL := (Config.freeWord (k + 9)).setWidth 15
  tLgbL0 := (Config.freeWord (k + 10)).setWidth 15
  tLgbL1 := (Config.freeWord (k + 11)).setWidth 15
  tTermH := (Config.freeWord (k + 12)).setWidth 15
  tLgapTotal := (Config.freeWord (k + 13)).setWidth 17

/-- The eight primitive registers holding the free values from the `k`-th on (10_state.md R34). Log entry 4. -/
def unspecifiedPrims (k : Nat) : Vector Word 8 :=
  #v[Config.freeWord k, Config.freeWord (k + 1), Config.freeWord (k + 2), Config.freeWord (k + 3),
    Config.freeWord (k + 4), Config.freeWord (k + 5), Config.freeWord (k + 6), Config.freeWord (k + 7)]

/-- The machine right after hardware reset (10_state.md R34, 70_reset_and_hazards.md R210): `built`, `fault` and the
cursors 0; the primitives and the table hold free values (log entry 4); the ports and the model's own fields hold the
values of log entries 1, 2, 5, 6 and 7. -/
def State.reset : State where
  built := false
  fault := false
  cur := 0
  bcur := 0
  lcur := 0
  x := unspecifiedPrims 0
  bit0 := Config.freeWord 8
  bit1 := Config.freeWord 9
  tt := TimingRegs.unspecified 10
  sc := zeroScanCode
  rem := 0
  rsp := ⟨.ok, ⟨false, false⟩, []⟩
  busy := false
  inputs := []
  freeCount := 24

end Sys2Proof.Machine
end

