-- ==== Sys2Proof/Machine/Flags.lean ====
section
/-! DEFINITION. Status flags and error codes: their sets of values and their bits. -/

namespace Sys2Proof.Machine

/-- The empty set of flags. -/
def Status.none : Status := ⟨false, false⟩

/-- `{complete}`. -/
def Status.completed : Status := ⟨true, false⟩

/-- `{buffer_full}`. -/
def Status.full : Status := ⟨false, true⟩

/-- `status[0]` is complete, `status[1]` is buffer_full (30_encoding.md R76). PRESUMED (the spec's G3), log entry 11. -/
def Status.bits (f : Status) : BitVec 2 :=
  BitVec.ofBool f.bufferFull ++ BitVec.ofBool f.complete

/-- The error code `err` (30_encoding.md R77). -/
def Err.code : Err → BitVec 2
  | .ok => 0b00
  | .configError => 0b01
  | .resourceError => 0b10
  | .contractViolation => 0b11

/-- `symbols_written`: the number of words written (30_encoding.md R75). -/
def Response.n (r : Response) : Nat := r.dst.length

/-- The fields `err`, `n` and `status` of the response as `RSP` carries them (30_encoding.md R75). -/
def Response.fields (r : Response) : BitVec 2 × BitVec 8 × BitVec 2 :=
  (r.err.code, BitVec.ofNat Config.cntW r.n, r.status.bits)

/-- The flag an ENCODE returns when the sub-encoder of step `c` reported `st` and the call ended there: arm (A) sets
buffer_full, arm (C) complete, arm (B') neither (43_frame_steps.md R141, R158). -/
def statusAfter (c : BitVec 4) (st : SubStatus) : Status :=
  match st with
  | .full => Status.full
  | .complete => if c = 11 then Status.completed else Status.none

end Sys2Proof.Machine
end

