-- ==== Sys2Proof/Machine/Operands.lean ====
section
/-! DEFINITION. Operand forms: the read primitive of the ScanCode span, the bit of a field, the primitive registers,
the step table, and the layout of 32-bit fields in the span. -/

namespace Sys2Proof.Machine

/-- `MemRead(a, 1)`: byte `a` of the ScanCode presented, `0 ≤ a ≤ 15` (20_memory.md R52). -/
def memRead (sc : ScanCode) (a : BitVec 4) : Byte :=
  sc[a.toNat]'(by have := a.isLt; omega)

/-- The bit a cursor value names in the field span `SC[4k .. 4k+3]`: byte offset `i[4:3]`, bit offset `i[2:0]` counted
from the most significant bit (10_state.md R21, 20_memory.md R54, 41_bit_encoder.md R121). -/
def fieldBit (sc : ScanCode) (k : BitVec 2) (i : BitVec 5) : Bool :=
  (memRead sc (k ++ i.extractLsb' 3 2)).getLsbD (7 - (i.extractLsb' 0 3).toNat)

/-- Read of the primitive register `x[i]` (10_state.md R25). -/
def readPrim (s : State) (i : BitVec 3) : Word :=
  s.x[i.toNat]'(by have := i.isLt; omega)

/-- The shape of a bit: BIT1 or BIT0 (41_bit_encoder.md R121, 43_frame_steps.md R157). -/
def bitShape (s : State) (b : Bool) : Word :=
  if b then s.bit1 else s.bit0

/-- The step table `STEP[0..11]` (30_encoding.md R78, R79); 12 to 15 are reserved (R80). -/
def stepTable (c : BitVec 4) : Option StepDesc :=
  match c.toNat with
  | 0 => some ⟨.lit, 0, 1⟩
  | 1 => some ⟨.bits, 0, 0⟩
  | 2 => some ⟨.lit, 5, 3⟩
  | 3 => some ⟨.lit, 2, 1⟩
  | 4 => some ⟨.bits, 1, 0⟩
  | 5 => some ⟨.lit, 3, 2⟩
  | 6 => some ⟨.lit, 0, 1⟩
  | 7 => some ⟨.bits, 2, 0⟩
  | 8 => some ⟨.lit, 5, 3⟩
  | 9 => some ⟨.lit, 2, 1⟩
  | 10 => some ⟨.bits, 3, 0⟩
  | 11 => some ⟨.lit, 1, 1⟩
  | _ => none

/-- The number of symbols of a step: `N` for a LIT step, 32 for a BITS step (30_encoding.md R78, R79). -/
def StepDesc.symbols (d : StepDesc) : Nat :=
  match d.kind with
  | .lit => d.len.toNat
  | .bits => 32

/-- Byte `j` (0 to 3) of a 32-bit field value in its field span, under either byte order (20_memory.md R51). -/
def fieldByte (order : ByteOrder) (d : Word) (j : Nat) : Byte :=
  match order with
  | .le => d.extractLsb' (8 * j) 8
  | .be => d.extractLsb' (24 - 8 * j) 8

/-- The ScanCode span of the four field values `data1` to `data4` (20_memory.md R51). -/
def scanCodeOfFields (order : ByteOrder) (d1 d2 d3 d4 : Word) : ScanCode :=
  #v[fieldByte order d1 0, fieldByte order d1 1, fieldByte order d1 2, fieldByte order d1 3,
    fieldByte order d2 0, fieldByte order d2 1, fieldByte order d2 2, fieldByte order d2 3,
    fieldByte order d3 0, fieldByte order d3 1, fieldByte order d3 2, fieldByte order d3 3,
    fieldByte order d4 0, fieldByte order d4 1, fieldByte order d4 2, fieldByte order d4 3]

/-- The span of four field values under the byte order of the configuration (20_memory.md R51, 30_encoding.md R82). -/
def scanCode (d1 d2 d3 d4 : Word) : ScanCode :=
  scanCodeOfFields Config.fieldByteOrder d1 d2 d3 d4

end Sys2Proof.Machine
end

