-- ==== Sys2Proof/Machine/Ops.lean ====
section
/-! DEFINITION. The named operations over the state: responses and raises, the cursors, the unspecified registers,
hardware reset, the write primitive, and what the frame machine does after a step. -/

namespace Sys2Proof.Machine

/-- The operation ends with `err`, no symbol and no flag (30_encoding.md R75, 60_exceptions.md R190). -/
def State.respond (s : State) (e : Err) : State :=
  { s with rsp := ⟨e, Status.none, []⟩, busy := false }

/-- `raise` (60_exceptions.md R193), the one place where an error is taken: the code is answered with `n` = 0 and no
flag; ContractViolation sets the sticky `fault`; nothing else is written. -/
def State.raise (s : State) (e : Err) : State :=
  match e with
  | .contractViolation => { s.respond e with fault := true }
  | .ok | .configError | .resourceError => s.respond e

/-- `cur <- 0 ; bcur <- 0 ; lcur <- 0` (44_host_operations.md R171, R173, R174). -/
def State.resetCursors (s : State) : State :=
  { s with cur := 0, bcur := 0, lcur := 0 }

/-- `x[0..7], BIT0, BIT1, tt <- unspecified` (44_host_operations.md R174, 10_state.md R34): each holds a fresh free
value. Log entry 4. -/
def State.unspecify (s : State) : State :=
  { s with
    x := unspecifiedPrims s.freeCount
    bit0 := Config.freeWord (s.freeCount + 8)
    bit1 := Config.freeWord (s.freeCount + 9)
    tt := TimingRegs.unspecified (s.freeCount + 10)
    freeCount := s.freeCount + 24 }

/-- The hardware reset input (70_reset_and_hazards.md R210, 10_state.md R34). It is the only event that clears `fault`;
it is no operation, so it leaves the ports as they are. -/
def State.hwReset (s : State) : State :=
  { s.resetCursors.unspecify with built := false, fault := false }

/-- `MemWrite(i, 4, w)`: one whole symbol word at index `i` of the destination of the call (20_memory.md R55). -/
def memWrite (dst : List Word) (i : Nat) (w : Word) : List Word :=
  dst.take i ++ w :: dst.drop (i + 1)

/-- `emit(w)`: `MemWrite(n, 4, w); n <- n + 1; rem <- rem - 1` (00_scope.md R11). -/
def State.emit (s : State) (w : Word) : State :=
  { s with
    rsp := { s.rsp with dst := memWrite s.rsp.dst s.rsp.n w }
    rem := s.rem - 1 }

/-- The combinations of the cursors that 10_state.md R23 admits; the others are reserved (30_encoding.md R80). -/
def State.resumable (s : State) : Bool :=
  match stepTable s.cur with
  | none => false
  | some d =>
    match d.kind with
    | .bits => s.lcur == 0
    | .lit => s.bcur == 0 && decide (s.lcur.toNat < d.len.toNat)

/-- An ENCODE call begins: its operands are presented, nothing is written yet (43_frame_steps.md R141). -/
def State.beginCall (s : State) (sc : ScanCode) (cap : Nat) : State :=
  { s with sc := sc, rem := cap, rsp := ⟨.ok, Status.none, []⟩, busy := true }

/-- What the frame machine does after step `c` returned `st` (43_frame_steps.md R141): arm (A) Full ends the call and
does not advance `cur`; arm (C) the terminator's Complete sets `cur` to 0 and ends the call; arm (B) Complete advances
`cur`, and the call goes on while capacity remains, (B') or ends when none does. -/
def State.afterStep (s : State) (c : BitVec 4) (st : SubStatus) : State :=
  match st with
  | .full => { s with busy := false, rsp := { s.rsp with status := statusAfter c st } }
  | .complete =>
    if c = 11 then
      { s with cur := 0, busy := false, rsp := { s.rsp with status := statusAfter c st } }
    else
      { s with cur := c + 1, busy := decide (0 < s.rem), rsp := { s.rsp with status := statusAfter c st } }

end Sys2Proof.Machine
end

