-- ==== Sys2Proof/Machine/Symbol.lean ====
section
/-! DEFINITION. The symbol word layout and the waveform that a symbol sequence denotes. -/

namespace Sys2Proof.Machine

/-- `pack(l0, d0, l1, d1) = l1 ++ d1[14:0] ++ l0 ++ d0[14:0]` (30_encoding.md R70). PRESUMED layout (the spec's G1),
log entry 9. -/
def pack (l0 : Level) (d0 : Duration) (l1 : Level) (d1 : Duration) : Word :=
  l1 ++ d1 ++ l0 ++ d0

/-- `unpack(w) = (w[15], w[14:0], w[31], w[30:16])` (30_encoding.md R70). -/
def unpack (w : Word) : Symbol where
  l0 := w.extractLsb' 15 1
  d0 := w.extractLsb' 0 15
  l1 := w.extractLsb' 31 1
  d1 := w.extractLsb' 16 15

/-- The two segments of a symbol, in order (30_encoding.md R73). -/
def symbolSegments (y : Symbol) : List (Level × Duration) :=
  [(y.l0, y.d0), (y.l1, y.d1)]

/-- `segs(s)`: the segments of a symbol list, two per symbol (30_encoding.md R73). -/
def segs (ws : List Word) : List (Level × Duration) :=
  ws.flatMap fun w => symbolSegments (unpack w)

/-- The segments before the first whose duration is `END_OF_SEQUENCE` (30_encoding.md R73). -/
def cutAtEnd (ss : List (Level × Duration)) : List (Level × Duration) :=
  ss.takeWhile fun p => p.2 ≠ Config.endOfSequence

/-- Each run of adjacent segments of equal level merged into one whose duration is the sum (30_encoding.md R73). -/
def mergeSegs : List (Level × Duration) → List (Level × Nat)
  | [] => []
  | (l, d) :: rest =>
    match mergeSegs rest with
    | [] => [(l, d.toNat)]
    | (l', d') :: more =>
      if l = l' then (l, d.toNat + d') :: more else (l, d.toNat) :: (l', d') :: more

/-- `wave(s)` (30_encoding.md R73): a reading of the peripheral, which is outside the block. Log entry 17. -/
def wave (ws : List Word) : List (Level × Nat) :=
  mergeSegs (cutAtEnd (segs ws))

/-- The level the line holds after the cut, if a segment of duration `END_OF_SEQUENCE` cut the list (30_encoding.md R73). -/
def holdLevel (ws : List Word) : Option Level :=
  ((segs ws).find? fun p => p.2 = Config.endOfSequence).map Prod.fst

/-- Two symbol lists are physically the same when their waveforms are equal (30_encoding.md R73). -/
def physicallySame (a b : List Word) : Bool :=
  wave a == wave b

end Sys2Proof.Machine
end

