-- ==== Sys2Proof/Machine/Build.lean ====
section
/-! DEFINITION. The timing constant table and the symbol primitive builder (40_timing_and_primitives.md). -/

namespace Sys2Proof.Machine

/-- A timed duration fits 15 bits and is not END_OF_SEQUENCE, tested as given (40_timing_and_primitives.md R103 (V1)). -/
def durationOk (d : Nat) : Bool :=
  decide (1 ≤ d ∧ d ≤ Config.durMax)

/-- The thirteen timed durations of a table (40_timing_and_primitives.md R103 (V1)). -/
def timedDurations (c : TimingTable) : List Nat :=
  [c.tLeadH, c.tLeadL, c.tBit0H, c.tBit0L, c.tBit1H, c.tBit1L, c.tSgapH, c.tSgapL, c.tLgaH, c.tLgaL, c.tLgbL0,
    c.tLgbL1, c.tTermH]

/-- `valid(tt)` (40_timing_and_primitives.md R103): (V1) and (V2), the sum computed exactly (43_frame_steps.md R163). -/
def validTable (c : TimingTable) : Bool :=
  (timedDurations c).all durationOk && decide (c.tLgaL + c.tLgbL0 + c.tLgbL1 = c.tLgapTotal)

/-- `tt <- cfg`: the table narrowed to its registers, after the check (10_state.md R27, 44_host_operations.md R171). -/
def narrowTable (c : TimingTable) : TimingRegs where
  tLeadH := BitVec.ofNat 15 c.tLeadH
  tLeadL := BitVec.ofNat 15 c.tLeadL
  tBit0H := BitVec.ofNat 15 c.tBit0H
  tBit0L := BitVec.ofNat 15 c.tBit0L
  tBit1H := BitVec.ofNat 15 c.tBit1H
  tBit1L := BitVec.ofNat 15 c.tBit1L
  tSgapH := BitVec.ofNat 15 c.tSgapH
  tSgapL := BitVec.ofNat 15 c.tSgapL
  tLgaH := BitVec.ofNat 15 c.tLgaH
  tLgaL := BitVec.ofNat 15 c.tLgaL
  tLgbL0 := BitVec.ofNat 15 c.tLgbL0
  tLgbL1 := BitVec.ofNat 15 c.tLgbL1
  tTermH := BitVec.ofNat 15 c.tTermH
  tLgapTotal := BitVec.ofNat 17 c.tLgapTotal

/-- The bit-0 shape of a table (40_timing_and_primitives.md R104). -/
def bit0Shape (t : TimingRegs) : Word := pack 1 t.tBit0H 0 t.tBit0L

/-- The bit-1 shape of a table (40_timing_and_primitives.md R104). -/
def bit1Shape (t : TimingRegs) : Word := pack 1 t.tBit1H 0 t.tBit1L

/-- The eight primitives of a table (40_timing_and_primitives.md R104, R105). -/
def primitivesOf (t : TimingRegs) : Vector Word 8 :=
  #v[pack 1 t.tLeadH 0 t.tLeadL,
    pack 1 t.tTermH 0 Config.endOfSequence,
    pack 1 t.tSgapH 0 t.tSgapL,
    pack 1 t.tLgaH 0 t.tLgaL,
    pack 0 t.tLgbL0 0 t.tLgbL1,
    bit0Shape t,
    bit1Shape t,
    bit0Shape t]

/-- BUILD(tt) (40_timing_and_primitives.md R104): reads `tt`, writes the ten registers, all of them, every time. -/
def State.build (s : State) : State :=
  { s with bit0 := bit0Shape s.tt, bit1 := bit1Shape s.tt, x := primitivesOf s.tt }

end Sys2Proof.Machine
end

