-- ==== Sys2Proof/Machine/SubEncoders.lean ====
section
/-! DEFINITION. The bit-sequence sub-encoder (41_bit_encoder.md) and the literal-symbol sub-encoder
(42_literal_encoder.md). -/

namespace Sys2Proof.Machine

/-- The loop of BITS_ENCODE (41_bit_encoder.md R121), for at most `fuel` turns; `b` is the cursor held transiently, up to
32. It answers the cursor and the state when the span or the capacity is exhausted. -/
def bitsLoop (k : BitVec 2) : Nat → Nat → State → Nat × State
  | 0, b, s => (b, s)
  | fuel + 1, b, s =>
    if b < 32 ∧ 0 < s.rem then
      bitsLoop k fuel (b + 1) (s.emit (bitShape s (fieldBit s.sc k (BitVec.ofNat 5 b))))
    else (b, s)

/-- BITS_ENCODE(k, rem) (41_bit_encoder.md R121): at the end of the span the cursor returns to 0 and the status is
Complete (R122, R124), otherwise the cursor names the first unemitted bit and the status is Full. -/
def bitsEncode (k : BitVec 2) (s : State) : SubStatus × State :=
  let r := bitsLoop k 32 s.bcur.toNat s
  if r.1 = 32 then (.complete, { r.2 with bcur := 0 })
  else (.full, { r.2 with bcur := BitVec.ofNat 5 r.1 })

/-- The loop of LIT_ENCODE (42_literal_encoder.md R131), for at most `fuel` turns; `l` is the count held transiently, up
to `len`. -/
def litLoop (a : BitVec 3) (len : Nat) : Nat → Nat → State → Nat × State
  | 0, l, s => (l, s)
  | fuel + 1, l, s =>
    if l < len ∧ 0 < s.rem then
      litLoop a len fuel (l + 1) (s.emit (readPrim s (a + BitVec.ofNat 3 l)))
    else (l, s)

/-- LIT_ENCODE(a, N, rem) (42_literal_encoder.md R131): the words `x[a + lcur]` on, verbatim. -/
def litEncode (a : BitVec 3) (len : BitVec 2) (s : State) : SubStatus × State :=
  let r := litLoop a len.toNat 3 s.lcur.toNat s
  if r.1 = len.toNat then (.complete, { r.2 with lcur := 0 })
  else (.full, { r.2 with lcur := BitVec.ofNat 2 r.1 })

/-- STEP_RUN (43_frame_steps.md R140): the sub-encoder that owns a step, by the step's descriptor. -/
def stepRun (d : StepDesc) (s : State) : SubStatus × State :=
  match d.kind with
  | .bits => bitsEncode (d.a.setWidth 2) s
  | .lit => litEncode d.a d.len s

end Sys2Proof.Machine
end

