-- ==== Sys2Proof/Machine/FrameSteps.lean ====
section
/-! DEFINITION. The twelve frame steps and FRAME_RUN (43_frame_steps.md). Each step invokes the sub-encoder that owns it
with the remaining capacity and does what R141 says after it returns. The step a machine runs is the one `cur` selects;
a meaning acts as its own step whatever `cur` holds (log entry 13). -/

namespace Sys2Proof.Machine

/-- A LIT step: LIT_ENCODE, then the arms of 43_frame_steps.md R141. -/
def litStep (c : BitVec 4) (a : BitVec 3) (len : BitVec 2) (s : State) : State :=
  let r := litEncode a len s
  r.2.afterStep c r.1

/-- A BITS step: BITS_ENCODE, then the arms of 43_frame_steps.md R141. -/
def bitsStep (c : BitVec 4) (k : BitVec 2) (s : State) : State :=
  let r := bitsEncode k s
  r.2.afterStep c r.1

/-- `Leading1` (43_frame_steps.md R144). -/
def stepLeading1 (s : State) : State := litStep 0 0 1 s

/-- `Data1Bits` (43_frame_steps.md R145). -/
def stepData1Bits (s : State) : State := bitsStep 1 0 s

/-- `Data1Suffix` (43_frame_steps.md R146). -/
def stepData1Suffix (s : State) : State := litStep 2 5 3 s

/-- `ShortGap1` (43_frame_steps.md R147). -/
def stepShortGap1 (s : State) : State := litStep 3 2 1 s

/-- `Data2Bits` (43_frame_steps.md R148). -/
def stepData2Bits (s : State) : State := bitsStep 4 1 s

/-- `LongGap` (43_frame_steps.md R149). -/
def stepLongGap (s : State) : State := litStep 5 3 2 s

/-- `Leading2` (43_frame_steps.md R150). -/
def stepLeading2 (s : State) : State := litStep 6 0 1 s

/-- `Data3Bits` (43_frame_steps.md R151). -/
def stepData3Bits (s : State) : State := bitsStep 7 2 s

/-- `Data3Suffix` (43_frame_steps.md R152). -/
def stepData3Suffix (s : State) : State := litStep 8 5 3 s

/-- `ShortGap2` (43_frame_steps.md R153). -/
def stepShortGap2 (s : State) : State := litStep 9 2 1 s

/-- `Data4Bits` (43_frame_steps.md R154). -/
def stepData4Bits (s : State) : State := bitsStep 10 3 s

/-- `Terminator` (43_frame_steps.md R155, R156). -/
def stepTerminator (s : State) : State := litStep 11 1 1 s

/-- The step `cur` selects (43_frame_steps.md R140, 30_encoding.md R78); a reserved value raises ContractViolation
(30_encoding.md R80, 60_exceptions.md R192). -/
def frameStep (s : State) : State :=
  match decodeStep s.cur with
  | some .leading1 => stepLeading1 s
  | some .data1Bits => stepData1Bits s
  | some .data1Suffix => stepData1Suffix s
  | some .shortGap1 => stepShortGap1 s
  | some .data2Bits => stepData2Bits s
  | some .longGap => stepLongGap s
  | some .leading2 => stepLeading2 s
  | some .data3Bits => stepData3Bits s
  | some .data3Suffix => stepData3Suffix s
  | some .shortGap2 => stepShortGap2 s
  | some .data4Bits => stepData4Bits s
  | some .terminator => stepTerminator s
  | some (.new _) | some (.encode _ _) | some .reset | some .destroy | none => s.raise .contractViolation

/-- The loop of FRAME_RUN (43_frame_steps.md R141): a step, and the next one within the same call while the call is not
ended. It turns at most twelve times in one call. -/
def frameLoop : Nat → State → State
  | 0, s => s
  | fuel + 1, s =>
    let t := frameStep s
    if t.busy then frameLoop fuel t else t

/-- FRAME_RUN(sc, cap) (43_frame_steps.md R141). -/
def frameRun (sc : ScanCode) (cap : Nat) (s : State) : State :=
  frameLoop 12 (s.beginCall sc cap)

/-- The meaning of `Leading1`. -/
def execLeading1 (s : State) : Host.Outcome State Fault Refusal := .next (stepLeading1 s)

/-- The meaning of `Data1Bits`. -/
def execData1Bits (s : State) : Host.Outcome State Fault Refusal := .next (stepData1Bits s)

/-- The meaning of `Data1Suffix`. -/
def execData1Suffix (s : State) : Host.Outcome State Fault Refusal := .next (stepData1Suffix s)

/-- The meaning of `ShortGap1`. -/
def execShortGap1 (s : State) : Host.Outcome State Fault Refusal := .next (stepShortGap1 s)

/-- The meaning of `Data2Bits`. -/
def execData2Bits (s : State) : Host.Outcome State Fault Refusal := .next (stepData2Bits s)

/-- The meaning of `LongGap`. -/
def execLongGap (s : State) : Host.Outcome State Fault Refusal := .next (stepLongGap s)

/-- The meaning of `Leading2`. -/
def execLeading2 (s : State) : Host.Outcome State Fault Refusal := .next (stepLeading2 s)

/-- The meaning of `Data3Bits`. -/
def execData3Bits (s : State) : Host.Outcome State Fault Refusal := .next (stepData3Bits s)

/-- The meaning of `Data3Suffix`. -/
def execData3Suffix (s : State) : Host.Outcome State Fault Refusal := .next (stepData3Suffix s)

/-- The meaning of `ShortGap2`. -/
def execShortGap2 (s : State) : Host.Outcome State Fault Refusal := .next (stepShortGap2 s)

/-- The meaning of `Data4Bits`. -/
def execData4Bits (s : State) : Host.Outcome State Fault Refusal := .next (stepData4Bits s)

/-- The meaning of `Terminator`. -/
def execTerminator (s : State) : Host.Outcome State Fault Refusal := .next (stepTerminator s)

end Sys2Proof.Machine
end

