-- ==== Sys2Proof/Machine/HostOps.lean ====
section
/-! DEFINITION. The four host operations (44_host_operations.md). -/

namespace Sys2Proof.Machine

/-- The prologue of an operation that needs `built` to be `wants` passes (44_host_operations.md R170): NEW needs an
unbuilt encoder, the others a built one, and none is accepted while `fault` is set. -/
def prologuePasses (wants : Bool) (s : State) : Bool :=
  !s.fault && (s.built == wants)

/-- The accepted NEW with a valid table (44_host_operations.md R171). -/
def State.construct (s : State) (cfg : TimingTable) : State :=
  { ({ s with tt := narrowTable cfg }.build.resetCursors.respond .ok) with built := true }

/-- NEW(cfg) (44_host_operations.md R171), priority by 60_exceptions.md R195. -/
def execNew (cfg : TimingTable) (s : State) : Host.Outcome State Fault Refusal :=
  .next (if prologuePasses false s then
      if validTable cfg then s.construct cfg else s.raise .configError
    else s.raise .contractViolation)

/-- ENCODE(sc, cap) (44_host_operations.md R172). A cursor combination that is reserved raises ContractViolation
(30_encoding.md R80, 60_exceptions.md R192); no run reaches one. -/
def execEncode (sc : ScanCode) (cap : Nat) (s : State) : Host.Outcome State Fault Refusal :=
  .next (if prologuePasses true s && s.resumable then frameRun sc cap s else s.raise .contractViolation)

/-- RESET (44_host_operations.md R173). -/
def execReset (s : State) : Host.Outcome State Fault Refusal :=
  .next (if prologuePasses true s then s.resetCursors.respond .ok else s.raise .contractViolation)

/-- DESTROY (44_host_operations.md R174). -/
def execDestroy (s : State) : Host.Outcome State Fault Refusal :=
  .next (if prologuePasses true s then { s.resetCursors.unspecify.respond .ok with built := false }
    else s.raise .contractViolation)

end Sys2Proof.Machine
end

