-- ==== Sys2Proof/Machine/Dispatch.lean ====
section
/-! DEFINITION. One arm per constructor of Instr. -/

namespace Sys2Proof.Machine

/-- The meaning of every instruction. -/
def exec (i : Instr) (s : State) : Host.Outcome State Fault Refusal :=
  match i with
  | .new cfg => Sys2Proof.Machine.execNew cfg s
  | .encode sc cap => Sys2Proof.Machine.execEncode sc cap s
  | .reset => Sys2Proof.Machine.execReset s
  | .destroy => Sys2Proof.Machine.execDestroy s
  | .leading1 => Sys2Proof.Machine.execLeading1 s
  | .data1Bits => Sys2Proof.Machine.execData1Bits s
  | .data1Suffix => Sys2Proof.Machine.execData1Suffix s
  | .shortGap1 => Sys2Proof.Machine.execShortGap1 s
  | .data2Bits => Sys2Proof.Machine.execData2Bits s
  | .longGap => Sys2Proof.Machine.execLongGap s
  | .leading2 => Sys2Proof.Machine.execLeading2 s
  | .data3Bits => Sys2Proof.Machine.execData3Bits s
  | .data3Suffix => Sys2Proof.Machine.execData3Suffix s
  | .shortGap2 => Sys2Proof.Machine.execShortGap2 s
  | .data4Bits => Sys2Proof.Machine.execData4Bits s
  | .terminator => Sys2Proof.Machine.execTerminator s

end Sys2Proof.Machine
end

