-- ==== Sys2Proof/Machine/Fetch.lean ====
section
/-! DEFINITION. What the next step of the machine fetches. -/

namespace Sys2Proof.Machine

/-- What the next step does. -/
inductive Next
  | frame (cur : BitVec 4)
  | command (c : Cmd) (rest : List HostEvent)
  | resetInput (rest : List HostEvent)
  | idle
  deriving DecidableEq, Repr

/-- The fetch: the step in flight of the call in progress, else the next host event, else nothing. Host events land
between operations only (20_memory.md R57). -/
def nextFetch (s : State) : Next :=
  if s.busy then .frame s.cur
  else
    match s.inputs with
    | [] => .idle
    | .cmd c :: rest => .command c rest
    | .hwReset :: rest => .resetInput rest

/-- A fetched encoding placed where the next step fetches. -/
def placeFetch (f : Fetched) (s : State) : State :=
  match f with
  | .cmd c => { s with busy := false, inputs := .cmd c :: s.inputs }
  | .step cur => { s with busy := true, cur := cur }

end Sys2Proof.Machine
end

