-- ==== Sys2Proof/Machine/Step.lean ====
section
/-! DEFINITION. One step of the machine, and the placing of a word of the opcode table for the next step. -/

namespace Sys2Proof.Machine

/-- Run a fetched encoding: the decoded instruction, or ContractViolation for a reserved one (30_encoding.md R80). -/
def runFetched (f : Fetched) (s : State) : Host.Outcome State Fault Refusal :=
  match decode f with
  | .ok i => exec i s
  | .error _ => .next (s.raise .contractViolation)

/-- One step. Between operations it is the next host event: a command runs as one atomic operation (00_scope.md R3),
the hardware reset input resets (70_reset_and_hazards.md R210), and with none presented the encoder is idle and keeps all
its state (60_exceptions.md R205). In a state where an ENCODE call is in progress it is the frame step that `cur`
selects. Log entries 1 and 2. -/
def step (s : State) : Host.Outcome State Fault Refusal :=
  match nextFetch s with
  | .frame cur => runFetched (.step cur) s
  | .command c rest => runFetched (.cmd c) { s with inputs := rest }
  | .resetInput rest => .next { s.hwReset with inputs := rest }
  | .idle => .next s

/-- `s` with a word of spec/opcode_table.json placed where the next step fetches: a command as the next host event with
no call in progress, a frame step as the value of `cur` with a call in progress. -/
def State.withFetchWord (s : State) (nbits w : Nat) : State :=
  match tableFetch nbits w with
  | some f => placeFetch f s
  | none => s

end Sys2Proof.Machine
end

