-- ==== Sys2Proof/Machine/Driver.lean ====
section
/-! DEFINITION. The pseudo-operations of the host (30_encoding.md R83). -/

namespace Sys2Proof.Machine

/-- `SEND sc, c` (30_encoding.md R83) with the capacities the host offers, one per call: ENCODE until `complete` is
reported or the host stops offering capacities. It answers the transmit stream, the words of the calls in call order,
and the state after the last call. -/
def send (sc : ScanCode) : List Nat → State → List Word × State
  | [], s => ([], s)
  | c :: caps, s =>
    match exec (.encode sc c) s with
    | .next t =>
      if t.rsp.status.complete then (t.rsp.dst, t)
      else
        let r := send sc caps t
        (t.rsp.dst ++ r.1, r.2)
    | .fault _ | .refused _ => ([], s)

/-- `ABORT == RESET` (30_encoding.md R83). -/
def abort (s : State) : Host.Outcome State Fault Refusal :=
  exec .reset s

/-- How a transmission run ends (70_reset_and_hazards.md R222); `unended` if the host stops before it does (log entry 19).
R222 does not name a hardware reset among the ends, and neither does this type. DESIGN CHOICE, log entry 21. -/
inductive RunEnd
  | completed
  | reset
  | destroyed
  | raised
  | unended
  deriving DecidableEq, Repr

/-- A run is successful exactly when it ends with the first ENCODE that returns `complete` (70_reset_and_hazards.md R222). -/
def RunEnd.successful (e : RunEnd) : Bool := e = .completed

/-- The words collected from the host operations issued one after the other, up to the first ENCODE that returns
`complete`, a RESET, a DESTROY or a raise, and which of these it was. A NEW issued meanwhile raises; a frame step is no
operation of the host, and a list that holds one is read no further. -/
def collectRun : List Instr → State → List Word × RunEnd
  | [], _ => ([], .unended)
  | i :: rest, s =>
    match exec i s with
    | .next t =>
      if t.rsp.err = .ok then
        match i with
        | .encode _ _ =>
          if t.rsp.status.complete then (t.rsp.dst, .completed)
          else
            let r := collectRun rest t
            (t.rsp.dst ++ r.1, r.2)
        | .reset => ([], .reset)
        | .destroy => ([], .destroyed)
        | .new _ | .leading1 | .data1Bits | .data1Suffix | .shortGap1 | .data2Bits | .longGap | .leading2
        | .data3Bits | .data3Suffix | .shortGap2 | .data4Bits | .terminator => ([], .unended)
      else ([], .raised)
    | .fault _ | .refused _ => ([], .unended)

/-- The operation is an ENCODE. -/
def isEncode : Instr → Bool
  | .encode _ _ => true
  | .new _ | .reset | .destroy | .leading1 | .data1Bits | .data1Suffix | .shortGap1 | .data2Bits | .longGap
  | .leading2 | .data3Bits | .data3Suffix | .shortGap2 | .data4Bits | .terminator => false

/-- A transmission run starts here: an ENCODE is issued in the state (0,0,0) (70_reset_and_hazards.md R222). -/
def startsRun (ops : List Instr) (s : State) : Bool :=
  ops.head?.any isEncode && decide (s.cur = 0 ∧ s.bcur = 0 ∧ s.lcur = 0)

/-- The transmission run that the operations `ops` make from `s` (70_reset_and_hazards.md R222): the words it collects and
how it ends. None where no run starts: the first operation is no ENCODE, or the state is not (0,0,0). A run is a list of
host operations, so one with a hardware reset between two of its calls cannot be formed. DESIGN CHOICE, log entry 21. -/
def transmissionRun (ops : List Instr) (s : State) : Option (List Word × RunEnd) :=
  if startsRun ops s then some (collectRun ops s) else none

end Sys2Proof.Machine
end

