-- ==== Sys2Proof/Machine/Frame.lean ====
section
/-! DEFINITION. The position in a frame, and the frame of a ScanCode (10_state.md R24, 43_frame_steps.md R157). -/

namespace Sys2Proof.Machine

/-- The table `base`: the frame index of a step's first symbol (10_state.md R24, 30_encoding.md R78). -/
def baseTable : List Nat := [0, 1, 33, 36, 37, 69, 71, 72, 104, 107, 108, 140]

/-- `pos(cur, bcur, lcur) = base[cur] + bcur + lcur` (10_state.md R24). -/
def State.pos (s : State) : Nat :=
  baseTable.getD s.cur.toNat 0 + s.bcur.toNat + s.lcur.toNat

/-- The 32 shapes of field `k + 1`, in transmission order (43_frame_steps.md R157). -/
def fieldShapes (s : State) (sc : ScanCode) (k : BitVec 2) : List Word :=
  (List.range 32).map fun i => bitShape s (fieldBit sc k (BitVec.ofNat 5 i))

/-- `FRAME(sc)` of the primitives that `s` holds (43_frame_steps.md R157). -/
def frame (s : State) (sc : ScanCode) : List Word :=
  [readPrim s 0]
    ++ fieldShapes s sc 0 ++ [s.bit0, s.bit1, s.bit0] ++ [readPrim s 2]
    ++ fieldShapes s sc 1
    ++ [readPrim s 3, readPrim s 4]
    ++ [readPrim s 0]
    ++ fieldShapes s sc 2 ++ [s.bit0, s.bit1, s.bit0] ++ [readPrim s 2]
    ++ fieldShapes s sc 3
    ++ [readPrim s 1]

end Sys2Proof.Machine
end

