-- ==== Sys2Proof/Safety.lean ====
section
/-! DEFINITION. What counts as a safe run: the encoder is not faulted (60_exceptions.md R193), and the invariant of the
states between and inside operations. -/

namespace Sys2Proof.Machine

/-- No hard failure so far (60_exceptions.md R193: a faulted state is never final). -/
abbrev State.Safe (s : State) : Prop := s.fault = false

/-- The encoder accepts ENCODE, RESET and DESTROY (44_host_operations.md R176, row built). -/
abbrev State.Ready (s : State) : Prop := s.built = true ∧ s.fault = false

/-- The resumption state is the entry point (70_reset_and_hazards.md R211). -/
abbrev State.AtStart (s : State) : Prop := s.cur = 0 ∧ s.bcur = 0 ∧ s.lcur = 0

/-- The table registers hold a valid table (40_timing_and_primitives.md R103; a register cannot exceed `DUR_MAX`). -/
def TimingRegs.valid (t : TimingRegs) : Bool :=
  [t.tLeadH, t.tLeadL, t.tBit0H, t.tBit0L, t.tBit1H, t.tBit1L, t.tSgapH, t.tSgapL, t.tLgaH, t.tLgaL, t.tLgbL0,
    t.tLgbL1, t.tTermH].all (fun d => d != 0) &&
  decide (t.tLgaL.toNat + t.tLgbL0.toNat + t.tLgbL1.toNat = t.tLgapTotal.toNat)

/-- A built encoder holds a valid table and the primitives that BUILD makes of it (40_timing_and_primitives.md R104,
R106). -/
abbrev State.PrimsBuilt (s : State) : Prop :=
  s.built = true →
    s.tt.valid = true ∧ s.x = primitivesOf s.tt ∧ s.bit0 = bit0Shape s.tt ∧ s.bit1 = bit1Shape s.tt

/-- The response is one the block gives (30_encoding.md R75 to R77, 43_frame_steps.md R158, 60_exceptions.md R190,
R194): ResourceError never, the two flags never together, no symbol and no flag with an error, at most 141 symbols. -/
abbrev State.RspOk (s : State) : Prop :=
  s.rsp.err ≠ .resourceError ∧
  ¬(s.rsp.status.complete = true ∧ s.rsp.status.bufferFull = true) ∧
  (s.rsp.err ≠ .ok → s.rsp.dst = [] ∧ s.rsp.status = Status.none) ∧
  s.rsp.n ≤ 141

/-- A call in progress has been accepted, has raised nothing, and has written no more symbols than the frame has up to
the position (44_host_operations.md R170, 10_state.md R24). -/
abbrev State.CallOk (s : State) : Prop :=
  s.busy = true → s.built = true ∧ s.fault = false ∧ s.rsp.err = .ok ∧ s.rsp.n ≤ s.pos

/-- The invariant of the machine: the resumption state (10_state.md R23), the start of an unbuilt encoder (R34), the
primitives, the response and the call in progress. -/
abbrev State.Inv (s : State) : Prop :=
  s.resumable = true ∧ (s.built = false → s.AtStart) ∧ s.PrimsBuilt ∧ s.RspOk ∧ s.CallOk

end Sys2Proof.Machine
end

