-- ==== Sys2Proof/Certificates/Slice0/Obligations.lean ====
section
/-! DEFINITION. The statements for the provers. Each says which rule or section of spec/ it formalises. -/

open Sys2Proof Sys2Proof.Machine

namespace Sys2Proof.Rows

/-- The four BITS steps: constructor, step number, field number minus one (30_encoding.md R78, R79). -/
def bits : List (Instr × BitVec 4 × BitVec 2) :=
  [(.data1Bits, 1, 0), (.data2Bits, 4, 1), (.data3Bits, 7, 2), (.data4Bits, 10, 3)]

/-- The eight LIT steps: constructor, step number, first register, length (30_encoding.md R78, R79). -/
def lits : List (Instr × BitVec 4 × BitVec 3 × BitVec 2) :=
  [(.leading1, 0, 0, 1), (.data1Suffix, 2, 5, 3), (.shortGap1, 3, 2, 1), (.longGap, 5, 3, 2),
    (.leading2, 6, 0, 1), (.data3Suffix, 8, 5, 3), (.shortGap2, 9, 2, 1), (.terminator, 11, 1, 1)]

/-- The host operations that need a built encoder (44_host_operations.md R170). -/
def NeedsBuilt (i : Instr) : Prop :=
  (∃ sc cap, i = .encode sc cap) ∨ i = .reset ∨ i = .destroy

/-- The four host operations (44_host_operations.md). -/
def IsHostOp (i : Instr) : Prop :=
  (∃ cfg, i = .new cfg) ∨ NeedsBuilt i

/-- The state after an operation that raised ContractViolation (60_exceptions.md R193). -/
def faulted (s : State) : State :=
  { s with fault := true, rsp := ⟨.contractViolation, ⟨false, false⟩, []⟩, busy := false }

/-- Nothing but the cursors, the ports and the call-in-progress bit differs: an ENCODE and a frame step write no
more than `cur`, `bcur`, `lcur`, the response and the remaining capacity (43_frame_steps.md R141). -/
def SameBuild (s t : State) : Prop :=
  t.built = s.built ∧ t.fault = s.fault ∧ t.x = s.x ∧ t.bit0 = s.bit0 ∧ t.bit1 = s.bit1 ∧ t.tt = s.tt ∧
    t.inputs = s.inputs ∧ t.freeCount = s.freeCount

/-- What the frame machine leaves after step `c` ended with Complete (43_frame_steps.md R141, arms (B), (B'), (C)).
`busy` is how the model holds "the call goes on" (log entry 1). -/
def Advanced (c : BitVec 4) (t : State) : Prop :=
  (c = 11 → t.cur = 0 ∧ t.rsp.status = ⟨true, false⟩ ∧ t.busy = false) ∧
  (c ≠ 11 → t.cur = c + 1 ∧ t.rsp.status = ⟨false, false⟩ ∧ (t.busy = true ↔ 0 < t.rem))

/-- What the frame machine leaves after a step ended with Full (43_frame_steps.md R141, arm (A)); `busy` as above. -/
def Paused (s t : State) : Prop :=
  t.cur = s.cur ∧ t.rsp.status = ⟨false, true⟩ ∧ t.busy = false

end Sys2Proof.Rows

open Sys2Proof.Rows

/-! ### Encodings -/

/-- 30_encoding.md sections 2 and 3: no operand of an instruction is lost by its encoding. -/
def Obligations.DecodeOfEncodeGivesTheInstruction : Prop :=
  ∀ i : Instr, i.wellFormed = true → decode (encode i) = .ok i

/-- 30_encoding.md sections 2 to 4: what decodes is well-formed, and its encoding has the same selector and decodes to
the same instruction. -/
def Obligations.DecodedInstructionsEncodeToTheirSelector : Prop :=
  ∀ (f : Fetched) (i : Instr), decode f = .ok i →
    i.wellFormed = true ∧ (encode i).selector = f.selector ∧ decode (encode i) = .ok i

/-- 30_encoding.md section 2: an operand field that an operation does not use is ignored. -/
def Obligations.UnusedOperandFieldsAreIgnored : Prop :=
  ∀ c d : Cmd, c.op = d.op → (c.op = 0b00 → c.cfg = d.cfg) → (c.op = 0b01 → c.sc = d.sc ∧ c.cap = d.cap) →
    decode (.cmd c) = decode (.cmd d)

/-- 30_encoding.md section 4: exactly the step selectors 12 to 15 name nothing; every command decodes. -/
def Obligations.OnlyReservedStepSelectorsAreRejected : Prop :=
  (∀ c : Cmd, ∃ i, decode (.cmd c) = .ok i) ∧
  (∀ c : BitVec 4, 12 ≤ c.toNat → decode (.step c) = .error (.reservedStep c) ∧ stepTable c = none) ∧
  (∀ c : BitVec 4, c.toNat < 12 → (∃ i, decode (.step c) = .ok i) ∧ (stepTable c).isSome = true)

/-- spec/opcode_table.json: words written out from the table decode to the instructions they stand for. -/
def Obligations.OpcodeTableWordsDecode : Prop :=
  (∀ cfg sc cap, decode (.cmd ⟨0b00, cfg, sc, cap⟩) = .ok (.new cfg)) ∧
  (∀ cfg sc, decode (.cmd ⟨0b01, cfg, sc, 0x00C8⟩) = .ok (.encode sc 200)) ∧
  (∀ cfg sc cap, decode (.cmd ⟨0b10, cfg, sc, cap⟩) = .ok .reset) ∧
  (∀ cfg sc cap, decode (.cmd ⟨0b11, cfg, sc, cap⟩) = .ok .destroy) ∧
  decode (.step 0b0000) = .ok .leading1 ∧ decode (.step 0b0001) = .ok .data1Bits ∧
  decode (.step 0b0101) = .ok .longGap ∧ decode (.step 0b1010) = .ok .data4Bits ∧
  decode (.step 0b1011) = .ok .terminator

/-- 30_encoding.md section 1 (the word layout is the spec's choice D4, log entry 9): `pack` is the sum and the
concatenation, and `unpack` undoes it in both directions. -/
def Obligations.PackPlacesTheFourFields : Prop :=
  (∀ (l0 l1 : Level) (d0 d1 : Duration),
    (pack l0 d0 l1 d1).toNat = d0.toNat + 2 ^ 15 * l0.toNat + 2 ^ 16 * d1.toNat + 2 ^ 31 * l1.toNat ∧
    unpack (pack l0 d0 l1 d1) = ⟨l0, d0, l1, d1⟩) ∧
  (∀ w : Word, pack (unpack w).l0 (unpack w).d0 (unpack w).l1 (unpack w).d1 = w)

/-- 20_memory.md R54: the transmission order of a field, over the bytes of the span, over the field values under either
byte order, and as the symbols that the four BITS steps emit. -/
def Obligations.FieldBitsAreSentMostSignificantFirstInByteOrder : Prop :=
  (∀ (sc : ScanCode) (k : BitVec 2) (i : BitVec 5),
    fieldBit sc k i = (sc[4 * k.toNat + i.toNat / 8]?.getD 0).getLsbD (7 - i.toNat % 8)) ∧
  (∀ (d1 d2 d3 d4 : Word) (k : BitVec 2) (i : BitVec 5),
    fieldBit (scanCodeOfFields .le d1 d2 d3 d4) k i =
      ([d1, d2, d3, d4].getD k.toNat 0).getLsbD (8 * (i.toNat / 8) + 7 - i.toNat % 8) ∧
    fieldBit (scanCodeOfFields .be d1 d2 d3 d4) k i = ([d1, d2, d3, d4].getD k.toNat 0).getLsbD (31 - i.toNat)) ∧
  (∀ (i : Instr) (c : BitVec 4) (k : BitVec 2), (i, c, k) ∈ bits → ∀ s : State, s.bcur = 0 → 32 ≤ s.rem →
    ∃ t, exec i s = .next t ∧ ∀ j : BitVec 5,
      t.rsp.dst[s.rsp.n + j.toNat]? = some (if fieldBit s.sc k j then s.bit1 else s.bit0))

/-! ### Construction -/

/-- 40_timing_and_primitives.md section 1, 43_frame_steps.md section 5: a valid table is held exactly, no value is
truncated, and its registers satisfy the validity conditions. -/
def Obligations.ValidTableIsHeldWithoutTruncation : Prop :=
  ∀ c : TimingTable, validTable c = true →
    (narrowTable c).valid = true ∧
    (narrowTable c).tLeadH.toNat = c.tLeadH ∧ (narrowTable c).tLeadL.toNat = c.tLeadL ∧
    (narrowTable c).tBit0H.toNat = c.tBit0H ∧ (narrowTable c).tBit0L.toNat = c.tBit0L ∧
    (narrowTable c).tBit1H.toNat = c.tBit1H ∧ (narrowTable c).tBit1L.toNat = c.tBit1L ∧
    (narrowTable c).tSgapH.toNat = c.tSgapH ∧ (narrowTable c).tSgapL.toNat = c.tSgapL ∧
    (narrowTable c).tLgaH.toNat = c.tLgaH ∧ (narrowTable c).tLgaL.toNat = c.tLgaL ∧
    (narrowTable c).tLgbL0.toNat = c.tLgbL0 ∧ (narrowTable c).tLgbL1.toNat = c.tLgbL1 ∧
    (narrowTable c).tTermH.toNat = c.tTermH ∧ (narrowTable c).tLgapTotal.toNat = c.tLgapTotal

/-- 40_timing_and_primitives.md section 1: what a valid table is. -/
def Obligations.TableIsInvalidExactlyWhenADurationOrTheSumIsWrong : Prop :=
  ∀ c : TimingTable, validTable c = false ↔
    (∃ d ∈ [c.tLeadH, c.tLeadL, c.tBit0H, c.tBit0L, c.tBit1H, c.tBit1L, c.tSgapH, c.tSgapL, c.tLgaH, c.tLgaL,
      c.tLgbL0, c.tLgbL1, c.tTermH], d = 0 ∨ 32767 < d) ∨
    c.tLgaL + c.tLgbL0 + c.tLgbL1 ≠ c.tLgapTotal

/-- 44_host_operations.md section "NEW", 40_timing_and_primitives.md section 2: an accepted NEW with a valid table writes
the table, the ten registers of BUILD, the cursors and `built`, answers OK, and changes nothing else. The word layout is
log entry 9 (PRESUMED, the spec's D4); the second duration 0 of the terminator word `x[1]`, END_OF_SEQUENCE, is log entry
10 (PRESUMED, the spec's D6). -/
def Obligations.NewBuildsThePrimitivesOfItsTable : Prop :=
  ∀ (cfg : TimingTable) (s : State), s.fault = false → s.built = false → validTable cfg = true →
    exec (.new cfg) s = .next { s with
      built := true
      cur := 0
      bcur := 0
      lcur := 0
      tt := narrowTable cfg
      bit0 := pack 1 (BitVec.ofNat 15 cfg.tBit0H) 0 (BitVec.ofNat 15 cfg.tBit0L)
      bit1 := pack 1 (BitVec.ofNat 15 cfg.tBit1H) 0 (BitVec.ofNat 15 cfg.tBit1L)
      x := #v[pack 1 (BitVec.ofNat 15 cfg.tLeadH) 0 (BitVec.ofNat 15 cfg.tLeadL),
        pack 1 (BitVec.ofNat 15 cfg.tTermH) 0 0,
        pack 1 (BitVec.ofNat 15 cfg.tSgapH) 0 (BitVec.ofNat 15 cfg.tSgapL),
        pack 1 (BitVec.ofNat 15 cfg.tLgaH) 0 (BitVec.ofNat 15 cfg.tLgaL),
        pack 0 (BitVec.ofNat 15 cfg.tLgbL0) 0 (BitVec.ofNat 15 cfg.tLgbL1),
        pack 1 (BitVec.ofNat 15 cfg.tBit0H) 0 (BitVec.ofNat 15 cfg.tBit0L),
        pack 1 (BitVec.ofNat 15 cfg.tBit1H) 0 (BitVec.ofNat 15 cfg.tBit1L),
        pack 1 (BitVec.ofNat 15 cfg.tBit0H) 0 (BitVec.ofNat 15 cfg.tBit0L)]
      rsp := ⟨.ok, ⟨false, false⟩, []⟩
      busy := false }

/-- 60_exceptions.md section 1: an accepted NEW with an invalid table answers ConfigError and writes no state. -/
def Obligations.NewWithAnInvalidTableRaisesConfigError : Prop :=
  ∀ (cfg : TimingTable) (s : State), s.fault = false → s.built = false → validTable cfg = false →
    exec (.new cfg) s = .next { s with rsp := ⟨.configError, ⟨false, false⟩, []⟩, busy := false }

/-- 60_exceptions.md section 1, 44_host_operations.md section "NEW": ConfigError is not sticky, a later NEW with a valid
table succeeds. -/
def Obligations.ConfigErrorIsNotSticky : Prop :=
  ∀ (bad good : TimingTable) (s t : State), exec (.new bad) s = .next t → t.rsp.err = .configError →
    validTable good = true →
    ∃ u, exec (.new good) t = .next u ∧ u.rsp.err = .ok ∧ u.built = true ∧ u.fault = false ∧ u.AtStart ∧
      u.tt = narrowTable good

/-- 44_host_operations.md section "NEW": NEW after DESTROY is allowed and gives the same encoder as NEW after hardware
reset. -/
def Obligations.NewAfterDestroyIsNewAfterHardwareReset : Prop :=
  ∀ (cfg : TimingTable) (s t : State), s.Ready → exec .destroy s = .next t → validTable cfg = true →
    ∃ u v, exec (.new cfg) t = .next u ∧ exec (.new cfg) State.reset = .next v ∧
      u.built = v.built ∧ u.fault = v.fault ∧ u.cur = v.cur ∧ u.bcur = v.bcur ∧ u.lcur = v.lcur ∧
      u.x = v.x ∧ u.bit0 = v.bit0 ∧ u.bit1 = v.bit1 ∧ u.tt = v.tt ∧ u.rsp = v.rsp

/-- 40_timing_and_primitives.md R105: the fixed suffix holds the shapes of the bits 0, 1, 0, and the two suffix steps
emit exactly these whatever the payload is. -/
def Obligations.FixedSuffixIsTheShapesZeroOneZero : Prop :=
  ∀ s : State, s.Inv → s.built = true →
    readPrim s 5 = s.bit0 ∧ readPrim s 6 = s.bit1 ∧ readPrim s 7 = s.bit0 ∧
    (s.lcur = 0 → 3 ≤ s.rem →
      (∃ t, exec .data1Suffix s = .next t ∧ t.rsp.dst = s.rsp.dst ++ [s.bit0, s.bit1, s.bit0]) ∧
      (∃ t, exec .data3Suffix s = .next t ∧ t.rsp.dst = s.rsp.dst ++ [s.bit0, s.bit1, s.bit0]))

/-- 40_timing_and_primitives.md section 1 (the waveform is the spec's reading D31, log entry 17; the layout D4, log entry
9): in a built encoder the two long-gap symbols are physically one high segment and one low segment of the full
length, and the terminator one high segment after which the line holds low. -/
def Obligations.LongGapIsOneHighAndOneFullLowSegment : Prop :=
  ∀ s : State, s.Inv → s.built = true →
    wave [readPrim s 3, readPrim s 4] = [(1, s.tt.tLgaH.toNat), (0, s.tt.tLgapTotal.toNat)] ∧
    wave [readPrim s 1] = [(1, s.tt.tTermH.toNat)] ∧ holdLevel [readPrim s 1] = some 0

/-! ### Errors and the lifecycle -/

/-- 60_exceptions.md section 1, 44_host_operations.md section 1 (the lifecycle checks are the spec's choices D16, D17): a
host operation against the lifecycle raises ContractViolation, whatever its operands (so also NEW with an invalid table),
sets `fault` and writes nothing else. -/
def Obligations.OperationAgainstTheLifecycleRaisesContractViolation : Prop :=
  ∀ s : State,
    (s.fault = true ∨ s.built = true → ∀ cfg, exec (.new cfg) s = .next (faulted s)) ∧
    (s.fault = true ∨ s.built = false → ∀ i, NeedsBuilt i → exec i s = .next (faulted s))

/-- 30_encoding.md section 4, 60_exceptions.md section 1: an ENCODE that finds a reserved cursor combination raises
ContractViolation; the reserved ones are those 10_state.md section 1 does not admit. -/
def Obligations.ReservedCursorsRaiseContractViolation : Prop :=
  ∀ (s : State) (sc : ScanCode) (cap : Nat),
    12 ≤ s.cur.toNat ∨ s.lcur = 3 ∨
      (∃ i c k, (i, c, k) ∈ bits ∧ s.cur = c ∧ s.lcur ≠ 0) ∨
      (∃ i c a n, (i, c, a, n) ∈ lits ∧ s.cur = c ∧ (s.bcur ≠ 0 ∨ n.toNat ≤ s.lcur.toNat)) →
    exec (.encode sc cap) s = .next (faulted s)

/-- 60_exceptions.md section 1: a raising operation emits no symbol and no flag and writes no state but `fault`, which
ContractViolation sets and ConfigError does not. -/
def Obligations.RaisingWritesNothingButTheFaultLatch : Prop :=
  ∀ (i : Instr) (s t : State), IsHostOp i → exec i s = .next t → t.rsp.err ≠ .ok →
    t.rsp.n = 0 ∧ t.rsp.status = ⟨false, false⟩ ∧
    (t.rsp.err = .configError ∧ (∃ cfg, i = .new cfg ∧ validTable cfg = false) ∧ t.fault = s.fault ∨
      t.rsp.err = .contractViolation ∧ t.fault = true) ∧
    t = { s with fault := t.fault, rsp := t.rsp, busy := false }

/-- 60_exceptions.md R196: a built, unfaulted encoder answers OK to every ENCODE and RESET, whatever their operands. -/
def Obligations.SteadyStateCannotFail : Prop :=
  ∀ s : State, s.Inv → s.Ready →
    (∀ sc cap, ∃ t, exec (.encode sc cap) s = .next t ∧ t.rsp.err = .ok ∧ t.Ready) ∧
    (∃ t, exec .reset s = .next t ∧ t.rsp.err = .ok ∧ t.Ready)

/-- 44_host_operations.md section 1, 70_reset_and_hazards.md section 1: only the hardware reset input clears `fault`, in
every state and over every step. -/
def Obligations.OnlyHardwareResetClearsTheFault : Prop :=
  ∀ s t : State, s.fault = true → step s = .next t → t.fault = false →
    s.busy = false ∧ ∃ rest, s.inputs = .hwReset :: rest

/-- 10_state.md section 4: `built` is set by NEW alone and cleared by DESTROY alone among the instructions. -/
def Obligations.OnlyNewAndDestroyChangeBuilt : Prop :=
  ∀ (i : Instr) (s t : State), exec i s = .next t → t.built ≠ s.built →
    (∃ cfg, i = .new cfg ∧ t.built = true) ∨ (i = .destroy ∧ t.built = false)

/-- 40_timing_and_primitives.md section 2, 20_memory.md section 5: no instruction but NEW and DESTROY writes the
primitives, the bit shapes or the table (DESTROY leaves them unspecified). -/
def Obligations.OnlyNewAndDestroyWriteThePrimitives : Prop :=
  ∀ (i : Instr) (s t : State), (∀ cfg, i ≠ .new cfg) → i ≠ .destroy → exec i s = .next t →
    t.x = s.x ∧ t.bit0 = s.bit0 ∧ t.bit1 = s.bit1 ∧ t.tt = s.tt ∧ t.freeCount = s.freeCount

/-- The model's choice, log entry 3 (DESIGN CHOICE): no instruction stops the machine, and no step does, because an error is
a next state with its code in the response. 60_exceptions.md section 1 gives the effect of a raise in full, and then tells
a model to map the faulted state to its fault outcome, which this model does not do. -/
def Obligations.EveryInstructionAndEveryStepGoesOn : Prop :=
  (∀ (i : Instr) (s : State), ∃ t, exec i s = .next t) ∧ (∀ s : State, ∃ t, step s = .next t)

/-! ### RESET, DESTROY, hardware reset -/

/-- 44_host_operations.md section "RESET": RESET puts the three cursors to their start from any position, answers OK with
no symbol, and changes nothing else. -/
def Obligations.ResetReturnsTheCursorsToTheStart : Prop :=
  ∀ s : State, s.Ready →
    exec .reset s = .next { s with
      cur := 0, bcur := 0, lcur := 0, rsp := ⟨.ok, ⟨false, false⟩, []⟩, busy := false }

/-- 44_host_operations.md section "RESET": RESET is idempotent, and the ENCODE after it reproduces the full frame from
the start. -/
def Obligations.ResetIsIdempotentAndTheNextFrameIsWhole : Prop :=
  ∀ s t : State, s.Inv → s.Ready → exec .reset s = .next t →
    exec .reset t = .next t ∧
    ∀ sc cap, 141 ≤ cap → ∃ u, exec (.encode sc cap) t = .next u ∧ u.rsp.dst = frame s sc ∧
      u.rsp.status = ⟨true, false⟩ ∧ u.rsp.n = 141

/-- 44_host_operations.md section "DESTROY": the instance is gone, the cursors are at their start, the answer is OK with
no symbol. What the primitives and the table hold is unspecified: the statement says nothing of them. -/
def Obligations.DestroyLeavesAnUnbuiltEncoder : Prop :=
  ∀ s : State, s.Ready → ∃ t, exec .destroy s = .next t ∧
    t.built = false ∧ t.fault = false ∧ t.AtStart ∧ t.rsp = ⟨.ok, ⟨false, false⟩, []⟩ ∧ t.busy = false ∧
    t.sc = s.sc ∧ t.rem = s.rem ∧ t.inputs = s.inputs

/-- 44_host_operations.md section "DESTROY": after DESTROY only NEW is accepted; a second DESTROY, an ENCODE and a RESET
raise ContractViolation. -/
def Obligations.AfterDestroyOnlyNewIsAccepted : Prop :=
  ∀ s t : State, s.Ready → exec .destroy s = .next t →
    (∀ i, NeedsBuilt i → ∃ u, exec i t = .next u ∧ u.rsp.err = .contractViolation ∧ u.fault = true) ∧
    (∀ cfg, validTable cfg = true → ∃ u, exec (.new cfg) t = .next u ∧ u.rsp.err = .ok ∧ u.Ready)

/-- 70_reset_and_hazards.md section 1: the hardware reset input, presented between operations, clears `built`, `fault` and
the cursors from every state; it is no operation, so the ports keep what they held (log entry 2). -/
def Obligations.HardwareResetClearsLatchesAndCursors : Prop :=
  ∀ (s : State) (rest : List HostEvent), s.busy = false → s.inputs = .hwReset :: rest →
    ∃ t, step s = .next t ∧ t.built = false ∧ t.fault = false ∧ t.AtStart ∧ t.inputs = rest ∧
      t.sc = s.sc ∧ t.rem = s.rem ∧ t.rsp = s.rsp ∧ t.busy = false

/-- 70_reset_and_hazards.md R211: after hardware reset, after every successful NEW, after every RESET and after every
ENCODE that reported `complete` the resumption state is (0, 0, 0), and from there the next symbol emitted is LEAD, index
0 of a frame. (That the reset input is an event of the host is log entry 2.) -/
def Obligations.EntryPointIsTheStartOfAFrame : Prop :=
  State.reset.AtStart ∧
  (∀ (s t : State) (rest : List HostEvent), s.busy = false → s.inputs = .hwReset :: rest → step s = .next t →
    t.AtStart) ∧
  (∀ (cfg : TimingTable) (s t : State), exec (.new cfg) s = .next t → t.rsp.err = .ok → t.AtStart) ∧
  (∀ s t : State, exec .reset s = .next t → t.rsp.err = .ok → t.AtStart) ∧
  (∀ (sc : ScanCode) (cap : Nat) (s t : State), exec (.encode sc cap) s = .next t → t.rsp.status.complete = true →
    t.AtStart) ∧
  (∀ (sc : ScanCode) (cap : Nat) (s : State), s.AtStart → s.Ready → 1 ≤ cap →
    s.pos = 0 ∧ ∃ t, exec (.encode sc cap) s = .next t ∧ t.rsp.dst.head? = some (readPrim s 0))

/-- 70_reset_and_hazards.md R212: NEW, RESET and frame completion all put the cursors to (0, 0, 0); NEW also writes the
primitives and sets `built`; RESET and completion touch nothing else. -/
def Obligations.SoftwareResetsCompared : Prop :=
  (∀ (cfg : TimingTable) (s t : State), exec (.new cfg) s = .next t → t.rsp.err = .ok →
    t.AtStart ∧ t.built = true ∧ t.x = primitivesOf (narrowTable cfg) ∧ t.bit0 = bit0Shape (narrowTable cfg) ∧
      t.bit1 = bit1Shape (narrowTable cfg)) ∧
  (∀ s t : State, exec .reset s = .next t → t.rsp.err = .ok → t.AtStart ∧ SameBuild s t) ∧
  (∀ (sc : ScanCode) (cap : Nat) (s t : State), exec (.encode sc cap) s = .next t → t.rsp.status.complete = true →
    t.AtStart ∧ SameBuild s t)

/-! ### The frame steps -/

/-- 43_frame_steps.md section 1, 30_encoding.md section 3: the transition rule has the same shape at every step; the
sub-encoder that owns a step is given by the step's format in the step table. That the step goes on from its own number
whatever `cur` held is log entry 13 (DESIGN CHOICE), and that `busy` holds whether the call goes on is log entry 1 (DESIGN
CHOICE). -/
def Obligations.EveryStepInvokesItsSubEncoder : Prop :=
  ∀ (c : BitVec 4) (i : Instr) (d : StepDesc) (s : State), decode (.step c) = .ok i → stepTable c = some d →
    (d.kind = .bits → ∃ k : BitVec 2, k.toNat = d.a.toNat ∧
      exec i s = .next ((bitsEncode k s).2.afterStep c (bitsEncode k s).1)) ∧
    (d.kind = .lit → exec i s = .next ((litEncode d.a d.len s).2.afterStep c (litEncode d.a d.len s).1))

/-- 41_bit_encoder.md sections "Contract" and "BITS_ENCODE", 43_frame_steps.md sections 1 and 2 (Data1Bits, Data2Bits,
Data3Bits, Data4Bits): each BITS step completes in every state; it emits `min(rem, 32 - bcur)` shapes of its field from the
cursor on, most significant bit first, and either reports Complete at the end of the span, or Full with the cursor at the
first unemitted bit, from where it resumes as one unbroken call; everything else is unchanged. That an exact fit is
Complete (D12), that capacity 0 is Full (D13) and that `bcur` is 0 on Complete (D15) are the spec's own choices, log entry
20; `cur` as the step's own number plus one whatever it held is log entry 13, and `busy` is log entry 1. -/
def Obligations.BitsStepsEmitTheBitsOfTheirField : Prop :=
  ∀ (i : Instr) (c : BitVec 4) (k : BitVec 2), (i, c, k) ∈ bits → ∀ s : State,
    ∃ t, exec i s = .next t ∧
      t.rsp.dst = s.rsp.dst ++ (List.range (min s.rem (32 - s.bcur.toNat))).map
        (fun j => if fieldBit s.sc k (BitVec.ofNat 5 (s.bcur.toNat + j)) then s.bit1 else s.bit0) ∧
      t.rem = s.rem - min s.rem (32 - s.bcur.toNat) ∧
      (32 ≤ s.bcur.toNat + s.rem → t.bcur = 0 ∧ Advanced c t) ∧
      (s.bcur.toNat + s.rem < 32 → t.bcur.toNat = s.bcur.toNat + s.rem ∧ Paused s t) ∧
      SameBuild s t ∧ t.lcur = s.lcur ∧ t.sc = s.sc ∧ t.rsp.err = s.rsp.err ∧
      (s.bcur.toNat + s.rem < 32 → ∀ r, exec i { t with rem := r } = exec i { s with rem := s.rem + r })

/-- 42_literal_encoder.md sections "Contract" and "LIT_ENCODE", 43_frame_steps.md sections 1 and 2 (the eight LIT steps):
each LIT step completes in every state whose count is below its length (the others are reserved: see
`ReservedCursorsRaiseContractViolation`); it copies as many whole words of its array as fit, `min(rem, N - lcur)`, and
either reports Complete when all are copied, or Full with the count of those copied; everything else is unchanged. That an
exact fit is Complete (D12), that capacity 0 is Full (D13) and that `lcur` is 0 on Complete (D15) are the spec's own
choices, log entry 20; `cur` as the step's own number plus one whatever it held is log entry 13, and `busy` is log entry
1. -/
def Obligations.LiteralStepsCopyTheirSymbols : Prop :=
  ∀ (i : Instr) (c : BitVec 4) (a : BitVec 3) (n : BitVec 2), (i, c, a, n) ∈ lits →
    ∀ s : State, s.lcur.toNat < n.toNat →
    ∃ t, exec i s = .next t ∧
      t.rsp.dst = s.rsp.dst ++ (List.range (min s.rem (n.toNat - s.lcur.toNat))).map
        (fun j => s.x[a.toNat + s.lcur.toNat + j]?.getD 0) ∧
      t.rem = s.rem - min s.rem (n.toNat - s.lcur.toNat) ∧
      (n.toNat ≤ s.lcur.toNat + s.rem → t.lcur = 0 ∧ Advanced c t) ∧
      (s.lcur.toNat + s.rem < n.toNat → t.lcur.toNat = s.lcur.toNat + s.rem ∧ Paused s t) ∧
      SameBuild s t ∧ t.bcur = s.bcur ∧ t.sc = s.sc ∧ t.rsp.err = s.rsp.err

/-- 43_frame_steps.md R156: when the terminator completes, the call ends at once with `complete`, `cur` is 0 and the
cursors are those after RESET and NEW, and no symbol of a next frame is emitted however much capacity remains. (`busy` is
how the model holds "the call goes on", log entry 1.) -/
def Obligations.TerminatorEndsTheFrame : Prop :=
  ∀ s : State, s.Inv → s.cur = 11 → 0 < s.rem →
    ∃ t, exec .terminator s = .next t ∧ t.rsp.dst = s.rsp.dst ++ [readPrim s 1] ∧ t.AtStart ∧
      t.rsp.status = ⟨true, false⟩ ∧ t.busy = false ∧ t.rem = s.rem - 1

/-- 43_frame_steps.md R162: the frame step that `cur` selects moves `cur` by one, from 11 to 0, or not at all, in every
state; the payload changes neither the successor nor the number of symbols of the step; NEW, RESET and DESTROY put `cur`
to 0 or, when they raise, leave it; hardware reset puts it to 0. An ENCODE is a run of such steps
(`EncodeIsTheRunOfItsFrameSteps`). (That the reset input is an event of the host is log entry 2.) -/
def Obligations.CursorNeverSkipsAStep : Prop :=
  (∀ (i : Instr) (s t : State), decode (.step s.cur) = .ok i → exec i s = .next t →
    t.cur = s.cur ∨ (s.cur.toNat < 11 ∧ t.cur.toNat = s.cur.toNat + 1) ∨ (s.cur = 11 ∧ t.cur = 0)) ∧
  (∀ (i : Instr) (s t : State) (sc : ScanCode), decode (.step s.cur) = .ok i → exec i s = .next t →
    ∃ u, exec i { s with sc := sc } = .next u ∧ u.cur = t.cur ∧ u.rsp.n = t.rsp.n) ∧
  (∀ (i : Instr) (s t : State), IsHostOp i → (∀ sc cap, i ≠ .encode sc cap) → exec i s = .next t →
    (t.rsp.err = .ok → t.cur = 0) ∧ (t.rsp.err ≠ .ok → t.cur = s.cur)) ∧
  (∀ (s t : State) (rest : List HostEvent), s.busy = false → s.inputs = .hwReset :: rest → step s = .next t →
    t.cur = 0)

/-- 41_bit_encoder.md section "Resumability law", 42_literal_encoder.md section "Resumability law" (laws the spec derives):
a step that paused and is invoked again ends as one invocation with the sum of the capacities. -/
def Obligations.PausedStepResumesAsOneUnbrokenStep : Prop :=
  ∀ (c : BitVec 4) (i : Instr) (s t : State) (r1 r2 : Nat), decode (.step c) = .ok i →
    (∀ d, stepTable c = some d → d.kind = .lit → s.lcur.toNat < d.len.toNat) →
    exec i { s with rem := r1 } = .next t → t.rsp.status.bufferFull = true →
    exec i { t with rem := r2 } = exec i { s with rem := r1 + r2 }

/-- 20_memory.md section 3: words already written in a call are never written again by a later step of it. -/
def Obligations.StepsOnlyAppendToTheDestination : Prop :=
  ∀ (c : BitVec 4) (i : Instr) (s t : State), decode (.step c) = .ok i → exec i s = .next t →
    s.rsp.dst <+: t.rsp.dst ∧ t.rsp.n + t.rem = s.rsp.n + s.rem

/-! ### One ENCODE call -/

/-- 43_frame_steps.md section 4 (the closed form, which the spec derives): from a built, unfaulted encoder at position `p`
one ENCODE emits `min(cap, 141 - p)` words of the frame from index `p` on, ends where they end, reports the flags that
follow, and changes nothing else. -/
def Obligations.EncodeEmitsTheNextPartOfTheFrame : Prop :=
  ∀ (s : State) (sc : ScanCode) (cap : Nat), s.Inv → s.Ready →
    ∃ t, exec (.encode sc cap) s = .next t ∧
      t.rsp.err = .ok ∧ t.rsp.n = min cap (141 - s.pos) ∧
      t.rsp.dst = ((frame s sc).drop s.pos).take (min cap (141 - s.pos)) ∧
      (141 ≤ s.pos + cap → t.AtStart ∧ t.rsp.status = ⟨true, false⟩) ∧
      (s.pos + cap < 141 → t.resumable = true ∧ t.pos = s.pos + cap ∧
        t.rsp.status = (if 0 < cap ∧ s.pos + cap ∈ baseTable then ⟨false, false⟩ else ⟨false, true⟩)) ∧
      SameBuild s t ∧ t.sc = sc ∧ t.rem = cap - min cap (141 - s.pos) ∧ t.busy = false

/-- 43_frame_steps.md section 4 (chunking invariance, which the spec derives): whatever capacities the host offers, the
words of the calls are together the frame from the start position on, and the frame ends exactly when the capacities reach
the symbols that remain. -/
def Obligations.ChunkingDoesNotChangeTheFrame : Prop :=
  ∀ (sc : ScanCode) (caps : List Nat) (s : State), s.Inv → s.Ready →
    (141 ≤ s.pos + caps.sum → (send sc caps s).1 = (frame s sc).drop s.pos ∧ (send sc caps s).2.AtStart ∧
      (send sc caps s).2.rsp.status = ⟨true, false⟩) ∧
    (s.pos + caps.sum < 141 → (send sc caps s).1 = ((frame s sc).drop s.pos).take caps.sum ∧
      (send sc caps s).2.pos = s.pos + caps.sum ∧ (send sc caps s).2.resumable = true ∧
      (caps ≠ [] → (send sc caps s).2.rsp.status.complete = false))

/-- 70_reset_and_hazards.md section 4 (which the spec derives): a transmission run starts exactly with an ENCODE issued in
the state (0,0,0); one that presents one ScanCode at every ENCODE, whatever other operations the host issues, collects a
leading part of the frame, and is successful exactly when that is the whole frame.A run has no hardware reset in it: the model's
choice, log entry 21. -/
def Obligations.SuccessfulTransmissionRunIsTheFrame : Prop :=
  (∀ (ops : List Instr) (s : State),
    (∃ r, transmissionRun ops s = some r) ↔ s.AtStart ∧ ∃ sc cap rest, ops = .encode sc cap :: rest) ∧
  (∀ (sc : ScanCode) (ops : List Instr) (s : State) (r : List Word × RunEnd), s.Inv → s.Ready →
    (∀ i ∈ ops, IsHostOp i ∧ ∀ sc' cap, i = .encode sc' cap → sc' = sc) → transmissionRun ops s = some r →
    r.1 <+: frame s sc ∧ (r.2.successful = true ↔ r.1 = frame s sc))

/-- 43_frame_steps.md section 1 (the spec's choice D13): capacity 0 emits nothing, reports `buffer_full` and changes no
state of the encoder. -/
def Obligations.ZeroCapacityChangesNothing : Prop :=
  ∀ (s : State) (sc : ScanCode), s.Inv → s.Ready →
    exec (.encode sc 0) s = .next { s with
      sc := sc, rem := 0, rsp := ⟨.ok, ⟨false, true⟩, []⟩, busy := false }

/-- 43_frame_steps.md section 4 (the spec's choice D12, log entry 20), 30_encoding.md section 2: no instruction in any state leaves both
flags set. -/
def Obligations.FlagsAreNeverBothSet : Prop :=
  ∀ (i : Instr) (s t : State), exec i s = .next t →
    ¬(t.rsp.status.complete = true ∧ t.rsp.status.bufferFull = true) ∧ t.rsp.status.bits ≠ 0b11

/-- 43_frame_steps.md section 4 (what the host learns from a return, which the spec derives): `n < cap` only with
`complete`; `complete` never with no symbol; neither flag only with at least one symbol. -/
def Obligations.FlagsTellTheHostWhatHappened : Prop :=
  ∀ (s t : State) (sc : ScanCode) (cap : Nat), s.Inv → s.Ready → exec (.encode sc cap) s = .next t →
    t.rsp.n ≤ cap ∧ t.rsp.n ≤ 141 ∧ (t.rsp.n < cap → t.rsp.status.complete = true) ∧
    (t.rsp.status.complete = true → 1 ≤ t.rsp.n) ∧
    (t.rsp.status = ⟨false, true⟩ → t.rsp.n = cap) ∧
    (t.rsp.status = ⟨false, false⟩ → t.rsp.n = cap ∧ 1 ≤ t.rsp.n)

/-- 44_host_operations.md section "ENCODE after complete" (the spec's choice D14): the ENCODE after one that reported
`complete` begins a new frame with the ScanCode presented with it, RESET or not. -/
def Obligations.EncodeAfterCompleteStartsANewFrame : Prop :=
  ∀ (s t : State) (sc sc' : ScanCode) (cap cap' : Nat), s.Inv → s.Ready → exec (.encode sc cap) s = .next t →
    t.rsp.status.complete = true → 141 ≤ cap' →
    ∃ u, exec (.encode sc' cap') t = .next u ∧ u.rsp.dst = frame s sc' ∧ u.rsp.status = ⟨true, false⟩

/-- 20_memory.md section 2, 70_reset_and_hazards.md section 3: the ScanCode is sampled at each call. When it changes
between two calls the stream is the first frame up to the position of the change and the second from there on. -/
def Obligations.ScanCodeIsSampledAtEachCall : Prop :=
  ∀ (s t : State) (sc sc' : ScanCode) (cap cap' : Nat), s.Inv → s.Ready → s.AtStart → cap < 141 → 141 ≤ cap + cap' →
    exec (.encode sc cap) s = .next t →
    ∃ u, exec (.encode sc' cap') t = .next u ∧
      t.rsp.dst ++ u.rsp.dst = (frame s sc).take t.pos ++ (frame s sc').drop t.pos

/-- 43_frame_steps.md section 4 ("No branching, no skipping"), 41_bit_encoder.md (corner case (e)): in every state the
payload changes neither the count, nor the flags, nor the cursors, nor the capacity left. -/
def Obligations.PayloadDoesNotChangeCountsFlagsOrCursors : Prop :=
  ∀ (s t u : State) (sc sc' : ScanCode) (cap : Nat), exec (.encode sc cap) s = .next t →
    exec (.encode sc' cap) s = .next u →
    t.rsp.n = u.rsp.n ∧ t.rsp.status = u.rsp.status ∧ t.rsp.err = u.rsp.err ∧ t.cur = u.cur ∧ t.bcur = u.bcur ∧
      t.lcur = u.lcur ∧ t.rem = u.rem ∧ t.fault = u.fault

/-- 30_encoding.md section 5 (which the spec derives): every capacity of 141 or more behaves as 141 does, and the count
fits its 8-bit field. -/
def Obligations.CapacitiesBeyondTheFrameBehaveAlike : Prop :=
  ∀ (s t u : State) (sc : ScanCode) (cap : Nat), s.Inv → 141 ≤ cap → exec (.encode sc cap) s = .next t →
    exec (.encode sc 141) s = .next u →
    t = { u with rem := t.rem } ∧ t.rsp.fields.2.1.toNat = t.rsp.n

/-- 43_frame_steps.md section 3: a frame has 141 symbols whatever the payload, and each of the twelve steps has its symbols
at its frame indices. -/
def Obligations.FrameHas141Symbols : Prop :=
  ∀ (s : State) (sc : ScanCode), (frame s sc).length = 141 ∧
    (frame s sc)[0]? = some (readPrim s 0) ∧
    (∀ i : BitVec 5, (frame s sc)[1 + i.toNat]? = some (bitShape s (fieldBit sc 0 i))) ∧
    (frame s sc)[33]? = some s.bit0 ∧ (frame s sc)[34]? = some s.bit1 ∧ (frame s sc)[35]? = some s.bit0 ∧
    (frame s sc)[36]? = some (readPrim s 2) ∧
    (∀ i : BitVec 5, (frame s sc)[37 + i.toNat]? = some (bitShape s (fieldBit sc 1 i))) ∧
    (frame s sc)[69]? = some (readPrim s 3) ∧ (frame s sc)[70]? = some (readPrim s 4) ∧
    (frame s sc)[71]? = some (readPrim s 0) ∧
    (∀ i : BitVec 5, (frame s sc)[72 + i.toNat]? = some (bitShape s (fieldBit sc 2 i))) ∧
    (frame s sc)[104]? = some s.bit0 ∧ (frame s sc)[105]? = some s.bit1 ∧ (frame s sc)[106]? = some s.bit0 ∧
    (frame s sc)[107]? = some (readPrim s 2) ∧
    (∀ i : BitVec 5, (frame s sc)[108 + i.toNat]? = some (bitShape s (fieldBit sc 3 i))) ∧
    (frame s sc)[140]? = some (readPrim s 1)

/-- 10_state.md section 1 (the position, which the spec derives): `pos` is a bijection between the resumption states and
the numbers 0 to 140. -/
def Obligations.PositionNumbersTheResumptionStates : Prop :=
  (∀ s : State, s.resumable = true → s.pos ≤ 140) ∧
  (∀ s t : State, s.resumable = true → t.resumable = true → s.pos = t.pos →
    s.cur = t.cur ∧ s.bcur = t.bcur ∧ s.lcur = t.lcur) ∧
  (∀ p : Nat, p ≤ 140 → ∃ c b l, ∀ s : State, s.cur = c → s.bcur = b → s.lcur = l →
    s.resumable = true ∧ s.pos = p)

/-! ### The machine -/

/-- 10_state.md section 7, section 1: the state after hardware reset has the values the spec gives and meets the
invariant. -/
def Obligations.InvariantHoldsAtReset : Prop :=
  State.reset.built = false ∧ State.reset.fault = false ∧ State.reset.AtStart ∧ State.reset.Inv

/-- 10_state.md section 1 (the resumption state, which the spec derives), section 7, 40_timing_and_primitives.md section
2, 30_encoding.md section 2: every step keeps the invariant. -/
def Obligations.EveryStepKeepsTheInvariant : Prop :=
  ∀ s t : State, s.Inv → step s = .next t → t.Inv

/-- 00_scope.md section 2, 30_encoding.md section 2: between operations a step is the presented command, decoded and
executed as one atomic operation, the events after it still waiting. -/
def Obligations.StepRunsThePresentedCommand : Prop :=
  ∀ (s : State) (c : Cmd) (rest : List HostEvent), s.busy = false → s.inputs = .cmd c :: rest →
    ∃ i, decode (.cmd c) = .ok i ∧ i.wellFormed = true ∧ IsHostOp i ∧
      step s = exec i { s with inputs := rest }

/-- 43_frame_steps.md section 1 (the call in progress is the model's, log entry 1): with a call in progress a step is the
frame step that `cur` selects. That a reserved selector then raises ContractViolation is log entry 12 (DEDUCED: 30_encoding.md
section 4 says it of an ENCODE). -/
def Obligations.StepRunsTheFrameStepInFlight : Prop :=
  ∀ s : State, s.busy = true →
    (∀ i, decode (.step s.cur) = .ok i → i.wellFormed = true ∧ step s = exec i s) ∧
    (12 ≤ s.cur.toNat → step s = .next (faulted s))

/-- 00_scope.md section 2, 60_exceptions.md section 4: with nothing presented the encoder is idle and keeps its state. -/
def Obligations.IdleStepKeepsTheState : Prop :=
  ∀ s : State, s.busy = false → s.inputs = [] → step s = .next s

/-- spec/opcode_table.json (the reading of its words is log entry 14): the step after a placed word runs exactly the
instruction it decodes to: a host operation with no call in progress, a frame step with a call in progress at its cursor. -/
def Obligations.StepRunsAPlacedTableWord : Prop :=
  ∀ (s : State) (nbits w : Nat) (i : Instr), decodeTableWord nbits w = some i →
    ∃ t, step (s.withFetchWord nbits w) = exec i t ∧
      (IsHostOp i ∧ t = { s with busy := false } ∨
        t = { s with busy := true, cur := t.cur } ∧ decode (.step t.cur) = .ok i)

/-- 43_frame_steps.md section 1 (the call in progress is the model's, log entry 1): the atomic ENCODE is the run of the
machine's own steps, at most twelve frame steps, from the call's beginning. -/
def Obligations.EncodeIsTheRunOfItsFrameSteps : Prop :=
  ∀ (s : State) (sc : ScanCode) (cap : Nat), s.Ready → s.resumable = true →
    ∃ k, k ≤ 12 ∧ Host.Core.run Sys2Proof.core k (s.beginCall sc cap) = exec (.encode sc cap) s
end

