-- ==== Sys2Proof/Laws/State.lean ====
section
/-! SUPPORT. One lemma per field per update of the state. -/

namespace Sys2Proof.Machine

variable (s : State)

@[simp] theorem respond_built (e : Err) : (s.respond e).built = s.built := rfl
@[simp] theorem respond_fault (e : Err) : (s.respond e).fault = s.fault := rfl
@[simp] theorem respond_cur (e : Err) : (s.respond e).cur = s.cur := rfl
@[simp] theorem respond_bcur (e : Err) : (s.respond e).bcur = s.bcur := rfl
@[simp] theorem respond_lcur (e : Err) : (s.respond e).lcur = s.lcur := rfl
@[simp] theorem respond_x (e : Err) : (s.respond e).x = s.x := rfl
@[simp] theorem respond_bit0 (e : Err) : (s.respond e).bit0 = s.bit0 := rfl
@[simp] theorem respond_bit1 (e : Err) : (s.respond e).bit1 = s.bit1 := rfl
@[simp] theorem respond_tt (e : Err) : (s.respond e).tt = s.tt := rfl
@[simp] theorem respond_sc (e : Err) : (s.respond e).sc = s.sc := rfl
@[simp] theorem respond_rem (e : Err) : (s.respond e).rem = s.rem := rfl
@[simp] theorem respond_rsp (e : Err) : (s.respond e).rsp = ⟨e, Status.none, []⟩ := rfl
@[simp] theorem respond_busy (e : Err) : (s.respond e).busy = false := rfl
@[simp] theorem respond_inputs (e : Err) : (s.respond e).inputs = s.inputs := rfl
@[simp] theorem respond_freeCount (e : Err) : (s.respond e).freeCount = s.freeCount := rfl

@[simp] theorem raise_built (e : Err) : (s.raise e).built = s.built := by cases e <;> simp [State.raise, State.respond]
@[simp] theorem raise_fault (e : Err) : (s.raise e).fault = (s.fault || decide (e = .contractViolation)) := by cases e <;> simp [State.raise, State.respond]
@[simp] theorem raise_cur (e : Err) : (s.raise e).cur = s.cur := by cases e <;> simp [State.raise, State.respond]
@[simp] theorem raise_bcur (e : Err) : (s.raise e).bcur = s.bcur := by cases e <;> simp [State.raise, State.respond]
@[simp] theorem raise_lcur (e : Err) : (s.raise e).lcur = s.lcur := by cases e <;> simp [State.raise, State.respond]
@[simp] theorem raise_x (e : Err) : (s.raise e).x = s.x := by cases e <;> simp [State.raise, State.respond]
@[simp] theorem raise_bit0 (e : Err) : (s.raise e).bit0 = s.bit0 := by cases e <;> simp [State.raise, State.respond]
@[simp] theorem raise_bit1 (e : Err) : (s.raise e).bit1 = s.bit1 := by cases e <;> simp [State.raise, State.respond]
@[simp] theorem raise_tt (e : Err) : (s.raise e).tt = s.tt := by cases e <;> simp [State.raise, State.respond]
@[simp] theorem raise_sc (e : Err) : (s.raise e).sc = s.sc := by cases e <;> simp [State.raise, State.respond]
@[simp] theorem raise_rem (e : Err) : (s.raise e).rem = s.rem := by cases e <;> simp [State.raise, State.respond]
@[simp] theorem raise_rsp (e : Err) : (s.raise e).rsp = ⟨e, Status.none, []⟩ := by cases e <;> simp [State.raise, State.respond]
@[simp] theorem raise_busy (e : Err) : (s.raise e).busy = false := by cases e <;> simp [State.raise, State.respond]
@[simp] theorem raise_inputs (e : Err) : (s.raise e).inputs = s.inputs := by cases e <;> simp [State.raise, State.respond]
@[simp] theorem raise_freeCount (e : Err) : (s.raise e).freeCount = s.freeCount := by cases e <;> simp [State.raise, State.respond]

@[simp] theorem resetCursors_built : (s.resetCursors).built = s.built := rfl
@[simp] theorem resetCursors_fault : (s.resetCursors).fault = s.fault := rfl
@[simp] theorem resetCursors_cur : (s.resetCursors).cur = 0 := rfl
@[simp] theorem resetCursors_bcur : (s.resetCursors).bcur = 0 := rfl
@[simp] theorem resetCursors_lcur : (s.resetCursors).lcur = 0 := rfl
@[simp] theorem resetCursors_x : (s.resetCursors).x = s.x := rfl
@[simp] theorem resetCursors_bit0 : (s.resetCursors).bit0 = s.bit0 := rfl
@[simp] theorem resetCursors_bit1 : (s.resetCursors).bit1 = s.bit1 := rfl
@[simp] theorem resetCursors_tt : (s.resetCursors).tt = s.tt := rfl
@[simp] theorem resetCursors_sc : (s.resetCursors).sc = s.sc := rfl
@[simp] theorem resetCursors_rem : (s.resetCursors).rem = s.rem := rfl
@[simp] theorem resetCursors_rsp : (s.resetCursors).rsp = s.rsp := rfl
@[simp] theorem resetCursors_busy : (s.resetCursors).busy = s.busy := rfl
@[simp] theorem resetCursors_inputs : (s.resetCursors).inputs = s.inputs := rfl
@[simp] theorem resetCursors_freeCount : (s.resetCursors).freeCount = s.freeCount := rfl

@[simp] theorem unspecify_built : (s.unspecify).built = s.built := rfl
@[simp] theorem unspecify_fault : (s.unspecify).fault = s.fault := rfl
@[simp] theorem unspecify_cur : (s.unspecify).cur = s.cur := rfl
@[simp] theorem unspecify_bcur : (s.unspecify).bcur = s.bcur := rfl
@[simp] theorem unspecify_lcur : (s.unspecify).lcur = s.lcur := rfl
@[simp] theorem unspecify_x : (s.unspecify).x = unspecifiedPrims s.freeCount := rfl
@[simp] theorem unspecify_bit0 : (s.unspecify).bit0 = Config.freeWord (s.freeCount + 8) := rfl
@[simp] theorem unspecify_bit1 : (s.unspecify).bit1 = Config.freeWord (s.freeCount + 9) := rfl
@[simp] theorem unspecify_tt : (s.unspecify).tt = TimingRegs.unspecified (s.freeCount + 10) := rfl
@[simp] theorem unspecify_sc : (s.unspecify).sc = s.sc := rfl
@[simp] theorem unspecify_rem : (s.unspecify).rem = s.rem := rfl
@[simp] theorem unspecify_rsp : (s.unspecify).rsp = s.rsp := rfl
@[simp] theorem unspecify_busy : (s.unspecify).busy = s.busy := rfl
@[simp] theorem unspecify_inputs : (s.unspecify).inputs = s.inputs := rfl
@[simp] theorem unspecify_freeCount : (s.unspecify).freeCount = s.freeCount + 24 := rfl

@[simp] theorem hwReset_built : (s.hwReset).built = false := rfl
@[simp] theorem hwReset_fault : (s.hwReset).fault = false := rfl
@[simp] theorem hwReset_cur : (s.hwReset).cur = 0 := rfl
@[simp] theorem hwReset_bcur : (s.hwReset).bcur = 0 := rfl
@[simp] theorem hwReset_lcur : (s.hwReset).lcur = 0 := rfl
@[simp] theorem hwReset_x : (s.hwReset).x = unspecifiedPrims s.freeCount := rfl
@[simp] theorem hwReset_bit0 : (s.hwReset).bit0 = Config.freeWord (s.freeCount + 8) := rfl
@[simp] theorem hwReset_bit1 : (s.hwReset).bit1 = Config.freeWord (s.freeCount + 9) := rfl
@[simp] theorem hwReset_tt : (s.hwReset).tt = TimingRegs.unspecified (s.freeCount + 10) := rfl
@[simp] theorem hwReset_sc : (s.hwReset).sc = s.sc := rfl
@[simp] theorem hwReset_rem : (s.hwReset).rem = s.rem := rfl
@[simp] theorem hwReset_rsp : (s.hwReset).rsp = s.rsp := rfl
@[simp] theorem hwReset_busy : (s.hwReset).busy = s.busy := rfl
@[simp] theorem hwReset_inputs : (s.hwReset).inputs = s.inputs := rfl
@[simp] theorem hwReset_freeCount : (s.hwReset).freeCount = s.freeCount + 24 := rfl

@[simp] theorem emit_built (w : Word) : (s.emit w).built = s.built := rfl
@[simp] theorem emit_fault (w : Word) : (s.emit w).fault = s.fault := rfl
@[simp] theorem emit_cur (w : Word) : (s.emit w).cur = s.cur := rfl
@[simp] theorem emit_bcur (w : Word) : (s.emit w).bcur = s.bcur := rfl
@[simp] theorem emit_lcur (w : Word) : (s.emit w).lcur = s.lcur := rfl
@[simp] theorem emit_x (w : Word) : (s.emit w).x = s.x := rfl
@[simp] theorem emit_bit0 (w : Word) : (s.emit w).bit0 = s.bit0 := rfl
@[simp] theorem emit_bit1 (w : Word) : (s.emit w).bit1 = s.bit1 := rfl
@[simp] theorem emit_tt (w : Word) : (s.emit w).tt = s.tt := rfl
@[simp] theorem emit_sc (w : Word) : (s.emit w).sc = s.sc := rfl
@[simp] theorem emit_rem (w : Word) : (s.emit w).rem = s.rem - 1 := rfl
@[simp] theorem emit_rsp (w : Word) : (s.emit w).rsp = { s.rsp with dst := memWrite s.rsp.dst s.rsp.n w } := rfl
@[simp] theorem emit_busy (w : Word) : (s.emit w).busy = s.busy := rfl
@[simp] theorem emit_inputs (w : Word) : (s.emit w).inputs = s.inputs := rfl
@[simp] theorem emit_freeCount (w : Word) : (s.emit w).freeCount = s.freeCount := rfl

@[simp] theorem beginCall_built (sc : ScanCode) (cap : Nat) : (s.beginCall sc cap).built = s.built := rfl
@[simp] theorem beginCall_fault (sc : ScanCode) (cap : Nat) : (s.beginCall sc cap).fault = s.fault := rfl
@[simp] theorem beginCall_cur (sc : ScanCode) (cap : Nat) : (s.beginCall sc cap).cur = s.cur := rfl
@[simp] theorem beginCall_bcur (sc : ScanCode) (cap : Nat) : (s.beginCall sc cap).bcur = s.bcur := rfl
@[simp] theorem beginCall_lcur (sc : ScanCode) (cap : Nat) : (s.beginCall sc cap).lcur = s.lcur := rfl
@[simp] theorem beginCall_x (sc : ScanCode) (cap : Nat) : (s.beginCall sc cap).x = s.x := rfl
@[simp] theorem beginCall_bit0 (sc : ScanCode) (cap : Nat) : (s.beginCall sc cap).bit0 = s.bit0 := rfl
@[simp] theorem beginCall_bit1 (sc : ScanCode) (cap : Nat) : (s.beginCall sc cap).bit1 = s.bit1 := rfl
@[simp] theorem beginCall_tt (sc : ScanCode) (cap : Nat) : (s.beginCall sc cap).tt = s.tt := rfl
@[simp] theorem beginCall_sc (sc : ScanCode) (cap : Nat) : (s.beginCall sc cap).sc = sc := rfl
@[simp] theorem beginCall_rem (sc : ScanCode) (cap : Nat) : (s.beginCall sc cap).rem = cap := rfl
@[simp] theorem beginCall_rsp (sc : ScanCode) (cap : Nat) : (s.beginCall sc cap).rsp = ⟨.ok, Status.none, []⟩ := rfl
@[simp] theorem beginCall_busy (sc : ScanCode) (cap : Nat) : (s.beginCall sc cap).busy = true := rfl
@[simp] theorem beginCall_inputs (sc : ScanCode) (cap : Nat) : (s.beginCall sc cap).inputs = s.inputs := rfl
@[simp] theorem beginCall_freeCount (sc : ScanCode) (cap : Nat) : (s.beginCall sc cap).freeCount = s.freeCount := rfl

@[simp] theorem build_built : (s.build).built = s.built := rfl
@[simp] theorem build_fault : (s.build).fault = s.fault := rfl
@[simp] theorem build_cur : (s.build).cur = s.cur := rfl
@[simp] theorem build_bcur : (s.build).bcur = s.bcur := rfl
@[simp] theorem build_lcur : (s.build).lcur = s.lcur := rfl
@[simp] theorem build_x : (s.build).x = primitivesOf s.tt := rfl
@[simp] theorem build_bit0 : (s.build).bit0 = bit0Shape s.tt := rfl
@[simp] theorem build_bit1 : (s.build).bit1 = bit1Shape s.tt := rfl
@[simp] theorem build_tt : (s.build).tt = s.tt := rfl
@[simp] theorem build_sc : (s.build).sc = s.sc := rfl
@[simp] theorem build_rem : (s.build).rem = s.rem := rfl
@[simp] theorem build_rsp : (s.build).rsp = s.rsp := rfl
@[simp] theorem build_busy : (s.build).busy = s.busy := rfl
@[simp] theorem build_inputs : (s.build).inputs = s.inputs := rfl
@[simp] theorem build_freeCount : (s.build).freeCount = s.freeCount := rfl

@[simp] theorem construct_built (cfg : TimingTable) : (s.construct cfg).built = true := rfl
@[simp] theorem construct_fault (cfg : TimingTable) : (s.construct cfg).fault = s.fault := rfl
@[simp] theorem construct_cur (cfg : TimingTable) : (s.construct cfg).cur = 0 := rfl
@[simp] theorem construct_bcur (cfg : TimingTable) : (s.construct cfg).bcur = 0 := rfl
@[simp] theorem construct_lcur (cfg : TimingTable) : (s.construct cfg).lcur = 0 := rfl
@[simp] theorem construct_x (cfg : TimingTable) : (s.construct cfg).x = primitivesOf (narrowTable cfg) := rfl
@[simp] theorem construct_bit0 (cfg : TimingTable) : (s.construct cfg).bit0 = bit0Shape (narrowTable cfg) := rfl
@[simp] theorem construct_bit1 (cfg : TimingTable) : (s.construct cfg).bit1 = bit1Shape (narrowTable cfg) := rfl
@[simp] theorem construct_tt (cfg : TimingTable) : (s.construct cfg).tt = narrowTable cfg := rfl
@[simp] theorem construct_sc (cfg : TimingTable) : (s.construct cfg).sc = s.sc := rfl
@[simp] theorem construct_rem (cfg : TimingTable) : (s.construct cfg).rem = s.rem := rfl
@[simp] theorem construct_rsp (cfg : TimingTable) : (s.construct cfg).rsp = ⟨.ok, Status.none, []⟩ := rfl
@[simp] theorem construct_busy (cfg : TimingTable) : (s.construct cfg).busy = false := rfl
@[simp] theorem construct_inputs (cfg : TimingTable) : (s.construct cfg).inputs = s.inputs := rfl
@[simp] theorem construct_freeCount (cfg : TimingTable) : (s.construct cfg).freeCount = s.freeCount := rfl

@[simp] theorem afterStep_built (c : BitVec 4) (st : SubStatus) : (s.afterStep c st).built = s.built := by
  cases st; (simp only [State.afterStep]; split <;> rfl); rfl
@[simp] theorem afterStep_fault (c : BitVec 4) (st : SubStatus) : (s.afterStep c st).fault = s.fault := by
  cases st; (simp only [State.afterStep]; split <;> rfl); rfl
@[simp] theorem afterStep_cur (c : BitVec 4) (st : SubStatus) : (s.afterStep c st).cur = (match st with | .full => s.cur | .complete => if c = 11 then 0 else c + 1) := by
  cases st; (simp only [State.afterStep]; split <;> rfl); rfl
@[simp] theorem afterStep_bcur (c : BitVec 4) (st : SubStatus) : (s.afterStep c st).bcur = s.bcur := by
  cases st; (simp only [State.afterStep]; split <;> rfl); rfl
@[simp] theorem afterStep_lcur (c : BitVec 4) (st : SubStatus) : (s.afterStep c st).lcur = s.lcur := by
  cases st; (simp only [State.afterStep]; split <;> rfl); rfl
@[simp] theorem afterStep_x (c : BitVec 4) (st : SubStatus) : (s.afterStep c st).x = s.x := by
  cases st; (simp only [State.afterStep]; split <;> rfl); rfl
@[simp] theorem afterStep_bit0 (c : BitVec 4) (st : SubStatus) : (s.afterStep c st).bit0 = s.bit0 := by
  cases st; (simp only [State.afterStep]; split <;> rfl); rfl
@[simp] theorem afterStep_bit1 (c : BitVec 4) (st : SubStatus) : (s.afterStep c st).bit1 = s.bit1 := by
  cases st; (simp only [State.afterStep]; split <;> rfl); rfl
@[simp] theorem afterStep_tt (c : BitVec 4) (st : SubStatus) : (s.afterStep c st).tt = s.tt := by
  cases st; (simp only [State.afterStep]; split <;> rfl); rfl
@[simp] theorem afterStep_sc (c : BitVec 4) (st : SubStatus) : (s.afterStep c st).sc = s.sc := by
  cases st; (simp only [State.afterStep]; split <;> rfl); rfl
@[simp] theorem afterStep_rem (c : BitVec 4) (st : SubStatus) : (s.afterStep c st).rem = s.rem := by
  cases st; (simp only [State.afterStep]; split <;> rfl); rfl
@[simp] theorem afterStep_rsp (c : BitVec 4) (st : SubStatus) : (s.afterStep c st).rsp = { s.rsp with status := statusAfter c st } := by
  cases st; (simp only [State.afterStep]; split <;> rfl); rfl
@[simp] theorem afterStep_busy (c : BitVec 4) (st : SubStatus) : (s.afterStep c st).busy = (match st with | .full => false | .complete => if c = 11 then false else decide (0 < s.rem)) := by
  cases st; (simp only [State.afterStep]; split <;> rfl); rfl
@[simp] theorem afterStep_inputs (c : BitVec 4) (st : SubStatus) : (s.afterStep c st).inputs = s.inputs := by
  cases st; (simp only [State.afterStep]; split <;> rfl); rfl
@[simp] theorem afterStep_freeCount (c : BitVec 4) (st : SubStatus) : (s.afterStep c st).freeCount = s.freeCount := by
  cases st; (simp only [State.afterStep]; split <;> rfl); rfl

end Sys2Proof.Machine
end

