-- ==== Sys2Proof/Laws/SubEncoders.lean ====
section
/-! SUPPORT. What the write primitive and the two sub-encoders do, in closed form. -/

namespace Sys2Proof.Machine

/-- The state after the words `ws` are emitted one after the other. -/
def State.emitAll (s : State) (ws : List Word) : State :=
  { s with rsp := { s.rsp with dst := s.rsp.dst ++ ws }, rem := s.rem - ws.length }

@[simp] theorem emitAll_built (s : State) (ws : List Word) : (s.emitAll ws).built = s.built := rfl
@[simp] theorem emitAll_fault (s : State) (ws : List Word) : (s.emitAll ws).fault = s.fault := rfl
@[simp] theorem emitAll_cur (s : State) (ws : List Word) : (s.emitAll ws).cur = s.cur := rfl
@[simp] theorem emitAll_bcur (s : State) (ws : List Word) : (s.emitAll ws).bcur = s.bcur := rfl
@[simp] theorem emitAll_lcur (s : State) (ws : List Word) : (s.emitAll ws).lcur = s.lcur := rfl
@[simp] theorem emitAll_x (s : State) (ws : List Word) : (s.emitAll ws).x = s.x := rfl
@[simp] theorem emitAll_bit0 (s : State) (ws : List Word) : (s.emitAll ws).bit0 = s.bit0 := rfl
@[simp] theorem emitAll_bit1 (s : State) (ws : List Word) : (s.emitAll ws).bit1 = s.bit1 := rfl
@[simp] theorem emitAll_tt (s : State) (ws : List Word) : (s.emitAll ws).tt = s.tt := rfl
@[simp] theorem emitAll_sc (s : State) (ws : List Word) : (s.emitAll ws).sc = s.sc := rfl
@[simp] theorem emitAll_rem (s : State) (ws : List Word) : (s.emitAll ws).rem = s.rem - ws.length := rfl
@[simp] theorem emitAll_rsp (s : State) (ws : List Word) :
    (s.emitAll ws).rsp = { s.rsp with dst := s.rsp.dst ++ ws } := rfl
@[simp] theorem emitAll_busy (s : State) (ws : List Word) : (s.emitAll ws).busy = s.busy := rfl
@[simp] theorem emitAll_inputs (s : State) (ws : List Word) : (s.emitAll ws).inputs = s.inputs := rfl
@[simp] theorem emitAll_freeCount (s : State) (ws : List Word) : (s.emitAll ws).freeCount = s.freeCount := rfl

@[simp] theorem emitAll_nil (s : State) : s.emitAll [] = s := by
  simp [State.emitAll]

theorem emitAll_emitAll (s : State) (ws vs : List Word) :
    (s.emitAll ws).emitAll vs = s.emitAll (ws ++ vs) := by
  simp [State.emitAll, Nat.sub_sub]

/-- A word written at the index of the words so far stands behind them (20_memory.md R55). -/
@[simp] theorem memWrite_at_end (dst : List Word) (w : Word) : memWrite dst dst.length w = dst ++ [w] := by
  simp [memWrite]

/-- `emit` appends its word (00_scope.md R11). -/
theorem emit_eq_emitAll (s : State) (w : Word) : s.emit w = s.emitAll [w] := by
  simp [State.emit, State.emitAll, Response.n]

/-- The shapes of the bits `b` to `b + m - 1` of a field span. -/
def bitShapes (s : State) (k : BitVec 2) (b m : Nat) : List Word :=
  (List.range m).map fun j => bitShape s (fieldBit s.sc k (BitVec.ofNat 5 (b + j)))

@[simp] theorem bitShapes_length (s : State) (k : BitVec 2) (b m : Nat) : (bitShapes s k b m).length = m := by
  simp [bitShapes]

@[simp] theorem bitShapes_emitAll (s : State) (ws : List Word) (k : BitVec 2) (b m : Nat) :
    bitShapes (s.emitAll ws) k b m = bitShapes s k b m := rfl

theorem bitShapes_succ (s : State) (k : BitVec 2) (b m : Nat) :
    bitShapes s k b (m + 1) = bitShape s (fieldBit s.sc k (BitVec.ofNat 5 b)) :: bitShapes s k (b + 1) m := by
  simp [bitShapes, List.range_succ_eq_map, Function.comp_def, Nat.add_assoc, Nat.add_comm 1]

/-- The words `x[a + l]` to `x[a + l + m - 1]`. -/
def litWords (s : State) (a : BitVec 3) (l m : Nat) : List Word :=
  (List.range m).map fun j => readPrim s (a + BitVec.ofNat 3 (l + j))

@[simp] theorem litWords_length (s : State) (a : BitVec 3) (l m : Nat) : (litWords s a l m).length = m := by
  simp [litWords]

@[simp] theorem litWords_emitAll (s : State) (ws : List Word) (a : BitVec 3) (l m : Nat) :
    litWords (s.emitAll ws) a l m = litWords s a l m := rfl

theorem litWords_succ (s : State) (a : BitVec 3) (l m : Nat) :
    litWords s a l (m + 1) = readPrim s (a + BitVec.ofNat 3 l) :: litWords s a (l + 1) m := by
  simp [litWords, List.range_succ_eq_map, Function.comp_def, Nat.add_assoc, Nat.add_comm 1]

/-- The loop of BITS_ENCODE emits as many shapes as the span and the capacity allow (41_bit_encoder.md R121). -/
theorem bitsLoop_spec (k : BitVec 2) (fuel b : Nat) (s : State) (hb : b ≤ 32) (hf : 32 - b ≤ fuel) :
    bitsLoop k fuel b s =
      (b + min s.rem (32 - b), s.emitAll (bitShapes s k b (min s.rem (32 - b)))) := by
  induction fuel generalizing b s with
  | zero =>
    have : b = 32 := by omega
    simp [bitsLoop, this, bitShapes]
  | succ fuel ih =>
    by_cases h : b < 32 ∧ 0 < s.rem
    · have hm : min s.rem (32 - b) = min (s.rem - 1) (32 - (b + 1)) + 1 := by omega
      rw [bitsLoop, if_pos h, emit_eq_emitAll, ih _ _ (by omega) (by omega), emitAll_emitAll, hm, bitShapes_succ]
      simp [Nat.add_assoc, Nat.add_comm 1]
    · have hm : min s.rem (32 - b) = 0 := by omega
      rw [bitsLoop, if_neg h, hm]
      simp [bitShapes]

/-- BITS_ENCODE (41_bit_encoder.md R121): `m = min(rem, 32 - bcur)` shapes, Complete exactly when they reach the end of
the span. -/
theorem bitsEncode_spec (k : BitVec 2) (s : State) :
    bitsEncode k s =
      (if s.bcur.toNat + min s.rem (32 - s.bcur.toNat) = 32 then .complete else .full,
        { s.emitAll (bitShapes s k s.bcur.toNat (min s.rem (32 - s.bcur.toNat))) with
          bcur := BitVec.ofNat 5 (s.bcur.toNat + min s.rem (32 - s.bcur.toNat)) }) := by
  have hb := s.bcur.isLt
  rw [bitsEncode, bitsLoop_spec k 32 _ s (by omega) (by omega)]
  by_cases h : s.bcur.toNat + min s.rem (32 - s.bcur.toNat) = 32
  · simp only [h, if_true]; rfl
  · simp only [h, if_false]

/-- The loop of LIT_ENCODE copies as many words as the array and the capacity allow (42_literal_encoder.md R131). -/
theorem litLoop_spec (a : BitVec 3) (len fuel l : Nat) (s : State) (hl : l ≤ len) (hf : len - l ≤ fuel) :
    litLoop a len fuel l s =
      (l + min s.rem (len - l), s.emitAll (litWords s a l (min s.rem (len - l)))) := by
  induction fuel generalizing l s with
  | zero =>
    have : l = len := by omega
    simp [litLoop, this, litWords]
  | succ fuel ih =>
    by_cases h : l < len ∧ 0 < s.rem
    · have hm : min s.rem (len - l) = min (s.rem - 1) (len - (l + 1)) + 1 := by omega
      rw [litLoop, if_pos h, emit_eq_emitAll, ih _ _ (by omega) (by omega), emitAll_emitAll, hm, litWords_succ]
      simp [Nat.add_assoc, Nat.add_comm 1]
    · have hm : min s.rem (len - l) = 0 := by omega
      rw [litLoop, if_neg h, hm]
      simp [litWords]

/-- LIT_ENCODE (42_literal_encoder.md R131): `m = min(rem, N - lcur)` words, Complete exactly when they reach the end of
the array. -/
theorem litEncode_spec (a : BitVec 3) (len : BitVec 2) (s : State) (hl : s.lcur.toNat < len.toNat) :
    litEncode a len s =
      (if s.lcur.toNat + min s.rem (len.toNat - s.lcur.toNat) = len.toNat then .complete else .full,
        { s.emitAll (litWords s a s.lcur.toNat (min s.rem (len.toNat - s.lcur.toNat))) with
          lcur := if s.lcur.toNat + min s.rem (len.toNat - s.lcur.toNat) = len.toNat then 0
            else BitVec.ofNat 2 (s.lcur.toNat + min s.rem (len.toNat - s.lcur.toNat)) }) := by
  have hb := len.isLt
  rw [litEncode, litLoop_spec a len.toNat 3 _ s (by omega) (by omega)]
  by_cases h : s.lcur.toNat + min s.rem (len.toNat - s.lcur.toNat) = len.toNat
  · simp only [h, if_true]
  · simp only [h, if_false]

end Sys2Proof.Machine
end

