-- ==== Sys2Proof/Laws/FrameSteps.lean ====
section
/-! SUPPORT. What one frame step does, said once for all twelve in terms of the position in the frame. -/

namespace Sys2Proof.Machine

/-- The frame index behind the last symbol of step `c`: `base` of the next step, 141 for the last. -/
def stepEnd (c : BitVec 4) : Nat :=
  [1, 33, 36, 37, 69, 71, 72, 104, 107, 108, 140, 141].getD c.toNat 0

/-- The suffix registers hold the shapes of the bits 0, 1, 0 (40_timing_and_primitives.md R105). -/
def State.SuffixBuilt (s : State) : Prop :=
  readPrim s 5 = s.bit0 ∧ readPrim s 6 = s.bit1 ∧ readPrim s 7 = s.bit0

theorem suffixBuilt_of_primsBuilt {s : State} (h : s.PrimsBuilt) (hb : s.built = true) : s.SuffixBuilt := by
  obtain ⟨-, hx, h0, h1⟩ := h hb
  simp [State.SuffixBuilt, readPrim, hx, h0, h1, primitivesOf]

/-- The frame depends on the primitives and the bit shapes alone. -/
theorem frame_congr {s t : State} (sc : ScanCode) (hx : t.x = s.x) (h0 : t.bit0 = s.bit0) (h1 : t.bit1 = s.bit1) :
    frame t sc = frame s sc := by
  simp [frame, fieldShapes, bitShape, readPrim, hx, h0, h1]

theorem fieldShapes_part (s : State) (k : BitVec 2) (b m : Nat) (h : b + m ≤ 32) :
    ((fieldShapes s s.sc k).drop b).take m = bitShapes s k b m := by
  apply List.ext_getElem
  · simp [fieldShapes]; omega
  · intro j h1 h2
    simp [fieldShapes, bitShapes]

theorem take_drop_of_segment {α : Type} (f g : List α) (base n b m : Nat) (hg : (f.drop base).take n = g)
    (h : b + m ≤ n) : (f.drop (base + b)).take m = (g.drop b).take m := by
  subst hg
  rw [← List.drop_drop, List.drop_take, List.take_take]
  congr 1
  omega

/-- The twelve parts of a frame, one per step (43_frame_steps.md R157). -/
def frameParts (s : State) (sc : ScanCode) : List (List Word) :=
  [[readPrim s 0], fieldShapes s sc 0, [s.bit0, s.bit1, s.bit0], [readPrim s 2], fieldShapes s sc 1,
    [readPrim s 3, readPrim s 4], [readPrim s 0], fieldShapes s sc 2, [s.bit0, s.bit1, s.bit0], [readPrim s 2],
    fieldShapes s sc 3, [readPrim s 1]]

@[simp] theorem fieldShapes_length (s : State) (sc : ScanCode) (k : BitVec 2) : (fieldShapes s sc k).length = 32 := by
  simp [fieldShapes]

theorem frame_eq_flatten (s : State) (sc : ScanCode) : frame s sc = (frameParts s sc).flatten := by
  simp [frame, frameParts]

@[simp] theorem frame_length (s : State) (sc : ScanCode) : (frame s sc).length = 141 := by
  simp [frame]

theorem part_of_flatten {α : Type} (L : List (List α)) (i n : Nat) (g : List α) (h : i < L.length) (hg : L[i] = g)
    (hn : ((L.take i).map List.length).sum = n) : (L.flatten.drop n).take g.length = g := by
  subst hg hn
  have hL : L.flatten = (L.take i).flatten ++ (L[i] ++ (L.drop (i + 1)).flatten) := by
    conv_lhs => rw [← List.take_append_drop i L, List.drop_eq_getElem_cons h, List.flatten_append, List.flatten_cons]
  rw [hL, ← List.length_flatten, List.drop_left, List.take_left]

/-- The lengths of the parts are the counts of symbols per step (30_encoding.md R78). -/
theorem frameParts_lengths (s : State) (sc : ScanCode) :
    (frameParts s sc).map List.length = [1, 32, 3, 1, 32, 2, 1, 32, 3, 1, 32, 1] := by
  simp [frameParts]

/-- The part of a step stands in the frame from the step's base on (30_encoding.md R78, 43_frame_steps.md R157). -/
theorem frame_part (s : State) (sc : ScanCode) (c : BitVec 4) (g : List Word)
    (hg : (frameParts s sc)[c.toNat]? = some g) :
    ((frame s sc).drop (baseTable.getD c.toNat 0)).take g.length = g := by
  have hbase : ∀ c : BitVec 4, c.toNat < 12 →
      (([1, 32, 3, 1, 32, 2, 1, 32, 3, 1, 32, 1] : List Nat).take c.toNat).sum = baseTable.getD c.toNat 0 := by decide
  obtain ⟨hc, hg⟩ := List.getElem?_eq_some_iff.1 hg
  rw [frame_eq_flatten]
  refine part_of_flatten _ c.toNat _ _ hc hg ?_
  rw [List.map_take, frameParts_lengths]
  exact hbase c (by simpa [frameParts] using hc)

/-- The part of a BITS step is the shapes of its field. -/
theorem bits_segment {s : State} {c : BitVec 4} {k : BitVec 2}
    (h : stepTable c = some ⟨.bits, k.setWidth 3, 0⟩) :
    ((frame s s.sc).drop (baseTable.getD c.toNat 0)).take 32 = fieldShapes s s.sc k := by
  have hg : (frameParts s s.sc)[c.toNat]? = some (fieldShapes s s.sc k) := by
    have hk : k = ((stepTable c).map fun d => d.a.setWidth 2).getD 0 := by rw [h]; simp
    unfold stepTable at h
    split at h <;> simp_all [stepTable, frameParts]
  simpa using frame_part s s.sc c _ hg

/-- The part of a LIT step is the words of its array, when the suffix registers hold their shapes. -/
theorem lit_segment {s : State} (hs : s.SuffixBuilt) {c : BitVec 4} {a : BitVec 3} {n : BitVec 2}
    (h : stepTable c = some ⟨.lit, a, n⟩) :
    ((frame s s.sc).drop (baseTable.getD c.toNat 0)).take n.toNat = litWords s a 0 n.toNat := by
  have hg : (frameParts s s.sc)[c.toNat]? = some (litWords s a 0 n.toNat) := by
    obtain ⟨h5, h6, h7⟩ := hs
    unfold stepTable at h
    split at h <;> simp only [Option.some.injEq, StepDesc.mk.injEq, reduceCtorEq, false_and] at h <;>
      (obtain ⟨-, ha, hn⟩ := h; subst ha hn; simp [*, frameParts, litWords, List.range_succ]) <;>
      exact ⟨h5.symm, h6.symm, h7.symm⟩
  simpa using frame_part s s.sc c _ hg

/-- What one frame step of a call does, in terms of the position: it emits `m = min(rem, stepEnd - pos)` words, which are
those of the frame when the suffix registers hold their shapes, and then advances or pauses (43_frame_steps.md R141, R144
to R155). -/
structure FrameStepped (s t : State) : Prop where
  dst : s.SuffixBuilt →
    t.rsp.dst = s.rsp.dst ++ ((frame s s.sc).drop s.pos).take (min s.rem (stepEnd s.cur - s.pos))
  count : ∃ ws, ws.length = min s.rem (stepEnd s.cur - s.pos) ∧ t.rsp.dst = s.rsp.dst ++ ws
  rem : t.rem = s.rem - min s.rem (stepEnd s.cur - s.pos)
  err : t.rsp.err = s.rsp.err
  resumable : t.resumable = true
  last : s.cur = 11 → stepEnd s.cur ≤ s.pos + s.rem →
    t.cur = 0 ∧ t.bcur = 0 ∧ t.lcur = 0 ∧ t.rsp.status = Status.completed ∧ t.busy = false
  inner : s.cur ≠ 11 → stepEnd s.cur ≤ s.pos + s.rem →
    t.cur = s.cur + 1 ∧ t.bcur = 0 ∧ t.lcur = 0 ∧ t.rsp.status = Status.none ∧ t.busy = decide (0 < t.rem)
  paused : s.pos + s.rem < stepEnd s.cur →
    t.cur = s.cur ∧ t.pos = s.pos + s.rem ∧ t.rsp.status = Status.full ∧ t.busy = false
  built : t.built = s.built
  fault : t.fault = s.fault
  x : t.x = s.x
  bit0 : t.bit0 = s.bit0
  bit1 : t.bit1 = s.bit1
  tt : t.tt = s.tt
  sc : t.sc = s.sc
  inputs : t.inputs = s.inputs
  freeCount : t.freeCount = s.freeCount

theorem resumable_bits {s : State} {c : BitVec 4} {k : BitVec 2}
    (h : stepTable c = some ⟨.bits, k.setWidth 3, 0⟩) (hc : s.cur = c) : s.resumable = true ↔ s.lcur = 0 := by
  simp [State.resumable, hc, h]

theorem resumable_lit {s : State} {c : BitVec 4} {a : BitVec 3} {n : BitVec 2}
    (h : stepTable c = some ⟨.lit, a, n⟩) (hc : s.cur = c) :
    s.resumable = true ↔ s.bcur = 0 ∧ s.lcur.toNat < n.toNat := by
  simp [State.resumable, hc, h]

/-- Every step's start is a resumption state. -/
theorem resumable_start (s : State) (hc : s.cur.toNat ≤ 11) (hb : s.bcur = 0) (hl : s.lcur = 0) :
    s.resumable = true := by
  obtain ⟨c, hc'⟩ : ∃ c, s.cur = c := ⟨_, rfl⟩
  rw [hc'] at hc
  simp only [State.resumable, hc', hb, hl]
  clear hc' hb hl
  revert hc
  revert c
  decide

theorem succ_cur_le (c : BitVec 4) (h : c.toNat < 11) : (c + 1).toNat ≤ 11 := by
  revert c; decide

/-- A BITS step does what `FrameStepped` says. -/
theorem bitsStep_spec (s : State) (c : BitVec 4) (k : BitVec 2)
    (h : stepTable c = some ⟨.bits, k.setWidth 3, 0⟩) (hc : s.cur = c)
    (hr : s.resumable = true) : FrameStepped s (bitsStep c k s) := by
  have hl : s.lcur = 0 := (resumable_bits h hc).1 hr
  have hb := s.bcur.isLt
  have hc11 : c ≠ 11#4 ∧ c.toNat < 11 ∧ stepEnd c = baseTable.getD c.toNat 0 + 32 := by
    clear hc; revert h; revert c k; decide
  have hpos : s.pos = baseTable.getD c.toNat 0 + s.bcur.toNat := by simp [State.pos, hl, hc]
  have hm : min s.rem (stepEnd s.cur - s.pos) = min s.rem (32 - s.bcur.toNat) := by rw [hc]; omega
  have hcut : ((frame s s.sc).drop s.pos).take (min s.rem (stepEnd s.cur - s.pos)) =
      bitShapes s k s.bcur.toNat (min s.rem (32 - s.bcur.toNat)) := by
    rw [hm, hpos, take_drop_of_segment _ _ _ 32 _ _ (bits_segment h) (by omega), fieldShapes_part _ _ _ _ (by omega)]
  have hstep : bitsStep c k s = (bitsEncode k s).2.afterStep c (bitsEncode k s).1 := rfl
  rw [bitsEncode_spec] at hstep
  by_cases hfit : s.bcur.toNat + min s.rem (32 - s.bcur.toNat) = 32
  · rw [if_pos hfit, hfit] at hstep
    have hend : stepEnd s.cur ≤ s.pos + s.rem := by rw [hc]; omega
    constructor <;> try (rw [hstep]; simp [hm]; done)
    · intro _; rw [hstep, hcut]; simp
    · apply resumable_start
      · rw [hstep]; simp [hc11.1]; exact succ_cur_le c hc11.2.1
      · rw [hstep]; simp
      · rw [hstep]; simp [hl]
    · intro h11; exact absurd (hc ▸ h11) hc11.1
    · intro _ _; rw [hstep]; simp [hc11.1, hc, hl, statusAfter]
    · intro hp; omega
  · rw [if_neg hfit] at hstep
    have hlt : s.bcur.toNat + s.rem < 32 := by omega
    have hend : s.pos + s.rem < stepEnd s.cur := by rw [hc]; omega
    have hm' : min s.rem (32 - s.bcur.toNat) = s.rem := by omega
    have hcur : (bitsStep c k s).cur = c := by rw [hstep]; simp [hc]
    have hlc : (bitsStep c k s).lcur = 0 := by rw [hstep]; simp [hl]
    constructor <;> try (rw [hstep]; simp [hm]; done)
    · intro _; rw [hstep, hcut]; simp
    · exact (resumable_bits h hcur).2 hlc
    · intro _ h2; omega
    · intro _ h2; omega
    · intro _
      refine ⟨hcur.trans hc.symm, ?_, ?_, ?_⟩
      · simp only [State.pos, hcur, hlc]
        rw [hstep, hm']
        simp [hc, hl]
        omega
      · rw [hstep]; simp [statusAfter]
      · rw [hstep]; simp

/-- A LIT step does what `FrameStepped` says. -/
theorem litStep_spec (s : State) (c : BitVec 4) (a : BitVec 3) (n : BitVec 2)
    (h : stepTable c = some ⟨.lit, a, n⟩) (hc : s.cur = c)
    (hr : s.resumable = true) : FrameStepped s (litStep c a n s) := by
  obtain ⟨hb, hl⟩ := (resumable_lit h hc).1 hr
  have hn := n.isLt
  have hc11 : c.toNat ≤ 11 ∧ (c ≠ 11 → c.toNat < 11) ∧ stepEnd c = baseTable.getD c.toNat 0 + n.toNat := by
    clear hl hc hn; revert h; revert c a n; decide
  have hpos : s.pos = baseTable.getD c.toNat 0 + s.lcur.toNat := by simp [State.pos, hb, hc]
  have hm : min s.rem (stepEnd s.cur - s.pos) = min s.rem (n.toNat - s.lcur.toNat) := by rw [hc]; omega
  have hpart : ∀ m, s.lcur.toNat + m ≤ n.toNat →
      ((litWords s a 0 n.toNat).drop s.lcur.toNat).take m = litWords s a s.lcur.toNat m := by
    intro m hm
    apply List.ext_getElem
    · simp; omega
    · intro j h1 h2
      simp [litWords]
  have hcut : s.SuffixBuilt → ((frame s s.sc).drop s.pos).take (min s.rem (stepEnd s.cur - s.pos)) =
      litWords s a s.lcur.toNat (min s.rem (n.toNat - s.lcur.toNat)) := by
    intro hs
    rw [hm, hpos, take_drop_of_segment _ _ _ n.toNat _ _ (lit_segment hs h) (by omega), hpart _ (by omega)]
  have hstep : litStep c a n s = (litEncode a n s).2.afterStep c (litEncode a n s).1 := rfl
  rw [litEncode_spec a n s hl] at hstep
  by_cases hfit : s.lcur.toNat + min s.rem (n.toNat - s.lcur.toNat) = n.toNat
  · rw [if_pos hfit, if_pos hfit] at hstep
    have hend : stepEnd s.cur ≤ s.pos + s.rem := by rw [hc]; omega
    constructor <;> try (rw [hstep]; simp [hm]; done)
    · intro hs; rw [hstep, hcut hs]; simp
    · apply resumable_start
      · rw [hstep]
        by_cases h11 : c = 11#4
        · simp [h11]
        · simp [h11]; exact succ_cur_le c (hc11.2.1 h11)
      · rw [hstep]; simp [hb]
      · rw [hstep]; simp
    · intro h11 _; rw [hc] at h11; rw [hstep]; simp [h11, hb, statusAfter]
    · intro h11 _
      have h11 : c ≠ 11#4 := hc ▸ h11
      rw [hstep]; simp [h11, hc, hb, statusAfter]
    · intro hp; omega
  · rw [if_neg hfit, if_neg hfit] at hstep
    have hlt : s.lcur.toNat + s.rem < n.toNat := by omega
    have hend : s.pos + s.rem < stepEnd s.cur := by rw [hc]; omega
    have hm' : min s.rem (n.toNat - s.lcur.toNat) = s.rem := by omega
    have hcur : (litStep c a n s).cur = c := by rw [hstep]; simp [hc]
    have hbc : (litStep c a n s).bcur = 0 := by rw [hstep]; simp [hb]
    have hlc : (litStep c a n s).lcur.toNat = s.lcur.toNat + s.rem := by
      rw [hstep, hm']; simp; omega
    constructor <;> try (rw [hstep]; simp [hm]; done)
    · intro hs; rw [hstep, hcut hs]; simp
    · exact (resumable_lit h hcur).2 ⟨hbc, by omega⟩
    · intro _ h2; omega
    · intro _ h2; omega
    · intro _
      refine ⟨hcur.trans hc.symm, ?_, ?_, ?_⟩
      · simp only [State.pos, hcur, hbc, hlc]
        simp [hc, hb]
        omega
      · rw [hstep]; simp [statusAfter]
      · rw [hstep]; simp

theorem cur_cases (c : BitVec 4) (h : c.toNat ≤ 11) :
    c = 0 ∨ c = 1 ∨ c = 2 ∨ c = 3 ∨ c = 4 ∨ c = 5 ∨ c = 6 ∨ c = 7 ∨ c = 8 ∨ c = 9 ∨ c = 10 ∨ c = 11 := by
  revert c; decide

theorem cur_le_of_resumable {s : State} (h : s.resumable = true) : s.cur.toNat ≤ 11 := by
  obtain ⟨c, hc⟩ : ∃ c, s.cur = c := ⟨_, rfl⟩
  have : stepTable c ≠ none := by
    intro hn; simp [State.resumable, hc, hn] at h
  rw [hc]
  clear hc
  revert this; revert c; decide

/-- The step that `cur` selects does what `FrameStepped` says. -/
theorem frameStep_spec (s : State) (hr : s.resumable = true) : FrameStepped s (frameStep s) := by
  rcases cur_cases s.cur (cur_le_of_resumable hr) with h | h | h | h | h | h | h | h | h | h | h | h
  · have : frameStep s = litStep 0 0 1 s := by simp [frameStep, decodeStep, h, stepLeading1]
    rw [this]; exact litStep_spec s _ _ _ rfl h hr
  · have : frameStep s = bitsStep 1 0 s := by simp [frameStep, decodeStep, h, stepData1Bits]
    rw [this]; exact bitsStep_spec s _ _ rfl h hr
  · have : frameStep s = litStep 2 5 3 s := by simp [frameStep, decodeStep, h, stepData1Suffix]
    rw [this]; exact litStep_spec s _ _ _ rfl h hr
  · have : frameStep s = litStep 3 2 1 s := by simp [frameStep, decodeStep, h, stepShortGap1]
    rw [this]; exact litStep_spec s _ _ _ rfl h hr
  · have : frameStep s = bitsStep 4 1 s := by simp [frameStep, decodeStep, h, stepData2Bits]
    rw [this]; exact bitsStep_spec s _ _ rfl h hr
  · have : frameStep s = litStep 5 3 2 s := by simp [frameStep, decodeStep, h, stepLongGap]
    rw [this]; exact litStep_spec s _ _ _ rfl h hr
  · have : frameStep s = litStep 6 0 1 s := by simp [frameStep, decodeStep, h, stepLeading2]
    rw [this]; exact litStep_spec s _ _ _ rfl h hr
  · have : frameStep s = bitsStep 7 2 s := by simp [frameStep, decodeStep, h, stepData3Bits]
    rw [this]; exact bitsStep_spec s _ _ rfl h hr
  · have : frameStep s = litStep 8 5 3 s := by simp [frameStep, decodeStep, h, stepData3Suffix]
    rw [this]; exact litStep_spec s _ _ _ rfl h hr
  · have : frameStep s = litStep 9 2 1 s := by simp [frameStep, decodeStep, h, stepShortGap2]
    rw [this]; exact litStep_spec s _ _ _ rfl h hr
  · have : frameStep s = bitsStep 10 3 s := by simp [frameStep, decodeStep, h, stepData4Bits]
    rw [this]; exact bitsStep_spec s _ _ rfl h hr
  · have : frameStep s = litStep 11 1 1 s := by simp [frameStep, decodeStep, h, stepTerminator]
    rw [this]; exact litStep_spec s _ _ _ rfl h hr

end Sys2Proof.Machine
end

