-- ==== Sys2Proof/Laws/HostOps.lean ====
section
/-! SUPPORT. When a host operation is accepted and what it then answers, over the named operations; and what the
position and the resumption state depend on. -/

namespace Sys2Proof.Machine

theorem prologue_new (s : State) : prologuePasses false s = true ↔ s.fault = false ∧ s.built = false := by
  simp [prologuePasses]

theorem prologue_built (s : State) : prologuePasses true s = true ↔ s.Ready := by
  simp [prologuePasses, State.Ready, and_comm]

/-- An accepted NEW constructs (44_host_operations.md R171). -/
theorem execNew_accepted {cfg : TimingTable} {s : State} (hf : s.fault = false) (hb : s.built = false)
    (hv : validTable cfg = true) : execNew cfg s = .next (s.construct cfg) := by
  simp [execNew, prologuePasses, hf, hb, hv]

/-- An accepted NEW with an invalid table raises ConfigError (44_host_operations.md R171). -/
theorem execNew_invalid {cfg : TimingTable} {s : State} (hf : s.fault = false) (hb : s.built = false)
    (hv : validTable cfg = false) : execNew cfg s = .next (s.raise .configError) := by
  simp [execNew, prologuePasses, hf, hb, hv]

/-- NEW on a built or faulted encoder raises ContractViolation (44_host_operations.md R170). -/
theorem execNew_refused {cfg : TimingTable} {s : State} (h : s.fault = true ∨ s.built = true) :
    execNew cfg s = .next (s.raise .contractViolation) := by
  rcases h with h | h <;> simp [execNew, prologuePasses, h]

/-- An accepted ENCODE runs the frame machine (44_host_operations.md R172). -/
theorem execEncode_accepted {sc : ScanCode} {cap : Nat} {s : State} (h : s.Ready) (hr : s.resumable = true) :
    execEncode sc cap s = .next (frameRun sc cap s) := by
  simp [execEncode, prologuePasses, h.1, h.2, hr]

/-- An ENCODE that is not accepted raises ContractViolation (44_host_operations.md R170, 30_encoding.md R80). -/
theorem execEncode_refused {sc : ScanCode} {cap : Nat} {s : State} (h : ¬(s.Ready ∧ s.resumable = true)) :
    execEncode sc cap s = .next (s.raise .contractViolation) := by
  rw [← prologue_built] at h
  simp [execEncode, h]

/-- An accepted RESET resets the cursors (44_host_operations.md R173). -/
theorem execReset_accepted {s : State} (h : s.Ready) : execReset s = .next (s.resetCursors.respond .ok) := by
  simp [execReset, prologuePasses, h.1, h.2]

/-- A RESET that is not accepted raises ContractViolation (44_host_operations.md R170). -/
theorem execReset_refused {s : State} (h : ¬s.Ready) : execReset s = .next (s.raise .contractViolation) := by
  rw [← prologue_built] at h
  simp [execReset, h]

/-- An accepted DESTROY leaves an unbuilt encoder (44_host_operations.md R174). -/
theorem execDestroy_accepted {s : State} (h : s.Ready) :
    execDestroy s = .next { s.resetCursors.unspecify.respond .ok with built := false } := by
  simp [execDestroy, prologuePasses, h.1, h.2]

/-- A DESTROY that is not accepted raises ContractViolation (44_host_operations.md R170). -/
theorem execDestroy_refused {s : State} (h : ¬s.Ready) : execDestroy s = .next (s.raise .contractViolation) := by
  rw [← prologue_built] at h
  simp [execDestroy, h]

/-- The resumption state is a property of the cursors. -/
theorem resumable_congr {s t : State} (hc : t.cur = s.cur) (hb : t.bcur = s.bcur) (hl : t.lcur = s.lcur) :
    t.resumable = s.resumable := by
  simp only [State.resumable, hc, hb, hl]

/-- The position is a function of the cursors (10_state.md R24). -/
theorem pos_congr {s t : State} (hc : t.cur = s.cur) (hb : t.bcur = s.bcur) (hl : t.lcur = s.lcur) : t.pos = s.pos := by
  simp only [State.pos, hc, hb, hl]

/-- At the start of a step the position is the step's base (10_state.md R24). -/
theorem pos_start {s : State} (hb : s.bcur = 0) (hl : s.lcur = 0) : s.pos = baseTable.getD s.cur.toNat 0 := by
  simp [State.pos, hb, hl]

theorem resumable_of_atStart {s : State} (h : s.AtStart) : s.resumable = true :=
  resumable_start s (by simp [h.1]) h.2.1 h.2.2

theorem suffixBuilt_congr {s t : State} (hs : s.SuffixBuilt) (hx : t.x = s.x) (h0 : t.bit0 = s.bit0)
    (h1 : t.bit1 = s.bit1) : t.SuffixBuilt := by
  simpa [State.SuffixBuilt, readPrim, hx, h0, h1] using hs

/-- A resumption state lies inside its step (10_state.md R23, R24). -/
theorem pos_lt_stepEnd {s : State} (h : s.resumable = true) : s.pos < stepEnd s.cur ∧ stepEnd s.cur ≤ 141 := by
  rcases cur_cases s.cur (cur_le_of_resumable h) with h' | h' | h' | h' | h' | h' | h' | h' | h' | h' | h' | h' <;>
   (have hb := s.bcur.isLt; have hl := s.lcur.isLt
    simp [State.resumable, stepTable, h'] at h
    simp [State.pos, h', baseTable, stepEnd, h]
    try omega)

/-- The step that `cur` selects is the instruction that decodes from it (30_encoding.md R78). -/
theorem exec_of_decodeStep {s : State} {i : Instr} (h : decodeStep s.cur = some i) :
    exec i s = .next (frameStep s) := by
  unfold frameStep
  rw [h]
  cases i <;> first | rfl | (simp only [decodeStep] at h; split at h <;> simp_all)

end Sys2Proof.Machine
end

