-- ==== Sys2Proof/Laws/PerInstr.lean ====
section
/-! SUPPORT. One lemma per constructor: the encoding of an instruction is its row of spec/opcode_table.json. -/

namespace Sys2Proof.Laws.TableWord

/-- The row of spec/opcode_table.json of an instruction: whether its format is CMD, its mask and its match value. -/
def row : Instr → Bool × Nat × Nat
  | .new _ => (true, 0x3, 0x0)
  | .encode _ _ => (true, 0x3, 0x1)
  | .reset => (true, 0x3, 0x2)
  | .destroy => (true, 0x3, 0x3)
  | .leading1 => (false, 0xF, 0x0)
  | .data1Bits => (false, 0xF, 0x1)
  | .data1Suffix => (false, 0xF, 0x2)
  | .shortGap1 => (false, 0xF, 0x3)
  | .data2Bits => (false, 0xF, 0x4)
  | .longGap => (false, 0xF, 0x5)
  | .leading2 => (false, 0xF, 0x6)
  | .data3Bits => (false, 0xF, 0x7)
  | .data3Suffix => (false, 0xF, 0x8)
  | .shortGap2 => (false, 0xF, 0x9)
  | .data4Bits => (false, 0xF, 0xA)
  | .terminator => (false, 0xF, 0xB)

/-- The encoding is a command. -/
def isCommand : Fetched → Bool
  | .cmd _ => true
  | .step _ => false

/-- The encoding of the instruction has its row's format, and its selector under the row's mask is the row's match
value. -/
def Statement (i : Instr) : Prop :=
  isCommand (encode i) = (row i).1 ∧ (encode i).selector &&& (row i).2.1 = (row i).2.2

theorem new (cfg : TimingTable) : Statement (.new cfg) := by
  constructor <;> simp [Sys2Proof.encode, row, Fetched.selector, isCommand]
theorem encode (sc : ScanCode) (cap : Nat) : Statement (.encode sc cap) := by
  constructor <;> simp [Sys2Proof.encode, row, Fetched.selector, isCommand]
theorem reset : Statement .reset := ⟨rfl, rfl⟩
theorem destroy : Statement .destroy := ⟨rfl, rfl⟩
theorem leading1 : Statement .leading1 := ⟨rfl, rfl⟩
theorem data1Bits : Statement .data1Bits := ⟨rfl, rfl⟩
theorem data1Suffix : Statement .data1Suffix := ⟨rfl, rfl⟩
theorem shortGap1 : Statement .shortGap1 := ⟨rfl, rfl⟩
theorem data2Bits : Statement .data2Bits := ⟨rfl, rfl⟩
theorem longGap : Statement .longGap := ⟨rfl, rfl⟩
theorem leading2 : Statement .leading2 := ⟨rfl, rfl⟩
theorem data3Bits : Statement .data3Bits := ⟨rfl, rfl⟩
theorem data3Suffix : Statement .data3Suffix := ⟨rfl, rfl⟩
theorem shortGap2 : Statement .shortGap2 := ⟨rfl, rfl⟩
theorem data4Bits : Statement .data4Bits := ⟨rfl, rfl⟩
theorem terminator : Statement .terminator := ⟨rfl, rfl⟩

end Sys2Proof.Laws.TableWord
end

