-- ==== Sys2Proof/Tests/Slice0.lean ====
section
/-! SUPPORT. Tests from the vectors and worked examples of spec/, one step each, and for every statement with hypotheses
a witness that meets them. -/

namespace Sys2Proof.Tests

open Sys2Proof Sys2Proof.Machine Sys2Proof.Rows

/-! ### Helpers -/

/-- `REFSET` (40_timing_and_primitives.md R108). -/
def refset : TimingTable :=
  { tLeadH := 9000, tLeadL := 4500, tBit0H := 620, tBit0L := 540, tBit1H := 620, tBit1L := 1600, tSgapH := 620,
    tSgapL := 20000, tLgaH := 620, tLgaL := 30000, tLgbL0 := 5000, tLgbL1 := 5000, tTermH := 620,
    tLgapTotal := 40000 }

/-- `bad` of 95_test_vectors.md V26. -/
def bad : TimingTable := { refset with tSgapL := 40000 }

/-- The encoder just built with `REFSET`. -/
def fresh : State := State.reset.construct refset

/-- An unbuilt encoder. -/
def unbuilt : State := { fresh with built := false }

/-- A faulted encoder. -/
def dead : State := { fresh with fault := true }

/-- ScanCode `A` (95_test_vectors.md, conventions). -/
def scA : ScanCode := Vector.replicate 16 0xAA

/-- ScanCode `C` (95_test_vectors.md, conventions). -/
def scC : ScanCode :=
  #v[0x12, 0x34, 0x56, 0x78, 0x9A, 0xBC, 0xDE, 0xF0, 0x0F, 0xF0, 0x55, 0xAA, 0x80, 0x00, 0x00, 0x01]

/-- The ScanCode of 95_test_vectors.md V9. -/
def scV9 : ScanCode := #v[0x80, 0x01, 0xFF, 0x00, 0, 0, 0, 0, 0, 0, 0, 0, 0, 0, 0, 0]

/-- The built encoder in the state `(c, b, l)`. -/
def atStep (c : BitVec 4) (b : BitVec 5) (l : BitVec 2) : State := { fresh with cur := c, bcur := b, lcur := l }

/-- The built encoder in a call that has reached the step `(c, b, l)` with capacity `r` left. -/
def midCall (c : BitVec 4) (b : BitVec 5) (l : BitVec 2) (sc : ScanCode) (r : Nat) : State :=
  { atStep c b l with sc := sc, rem := r, busy := true }

/-- The state an answer carries; a state that no answer of the tests is, where it carries none. -/
def out (o : Host.Outcome State Fault Refusal) : State :=
  match o with
  | .next t => t
  | .fault _ | .refused _ => dead

/-- The cursors of a state. -/
def cursors (s : State) : BitVec 4 × BitVec 5 × BitVec 2 := (s.cur, s.bcur, s.lcur)

/-- The letters of 95_test_vectors.md for a list of words under `REFSET`. -/
def letter (c : Char) : Word :=
  if c = 'L' then 0x1194A328 else if c = '0' then 0x021C826C else if c = '1' then 0x0640826C
  else if c = 'S' then 0x4E20826C else if c = 'G' then 0x7530826C else if c = 'g' then 0x13881388 else 0x0000826C

/-! ### Well-formedness: each check refuses an ill-formed term -/

theorem test_wellFormed_refuses_a_capacity_of_17_bits : (Instr.encode scA 65536).wellFormed = false := by decide

theorem test_wellFormed_admits_the_largest_capacity : (Instr.encode scA 65535).wellFormed = true := by decide

/-! ### Decoding: words written out from 30_encoding.md R74 and R78 -/

theorem test_decode_new : decode (.cmd ⟨0b00, refset, scA, 7⟩) = .ok (.new refset) := by rfl
theorem test_decode_encode : decode (.cmd ⟨0b01, refset, scA, 0b0000000011001000⟩) = .ok (.encode scA 200) := by rfl
theorem test_decode_reset : decode (.cmd ⟨0b10, refset, scA, 7⟩) = .ok .reset := by rfl
theorem test_decode_destroy : decode (.cmd ⟨0b11, refset, scA, 7⟩) = .ok .destroy := by rfl
theorem test_decode_leading1 : decode (.step 0b0000) = .ok .leading1 := by rfl
theorem test_decode_data1Bits : decode (.step 0b0001) = .ok .data1Bits := by rfl
theorem test_decode_data1Suffix : decode (.step 0b0010) = .ok .data1Suffix := by rfl
theorem test_decode_shortGap1 : decode (.step 0b0011) = .ok .shortGap1 := by rfl
theorem test_decode_data2Bits : decode (.step 0b0100) = .ok .data2Bits := by rfl
theorem test_decode_longGap : decode (.step 0b0101) = .ok .longGap := by rfl
theorem test_decode_leading2 : decode (.step 0b0110) = .ok .leading2 := by rfl
theorem test_decode_data3Bits : decode (.step 0b0111) = .ok .data3Bits := by rfl
theorem test_decode_data3Suffix : decode (.step 0b1000) = .ok .data3Suffix := by rfl
theorem test_decode_shortGap2 : decode (.step 0b1001) = .ok .shortGap2 := by rfl
theorem test_decode_data4Bits : decode (.step 0b1010) = .ok .data4Bits := by rfl
theorem test_decode_terminator : decode (.step 0b1011) = .ok .terminator := by rfl
theorem test_decode_rejects_cur_12_and_15 :
    decode (.step 0b1100) = .error (.reservedStep 12) ∧ decode (.step 0b1111) = .error (.reservedStep 15) :=
  ⟨rfl, rfl⟩

/-- spec/opcode_table.json: a 2-bit word is an `op`, a 4-bit word a `cur`. -/
theorem test_table_words :
    decodeTableWord 2 0b10 = some .reset ∧ decodeTableWord 2 0b11 = some .destroy ∧
    decodeTableWord 4 0b0010 = some .data1Suffix ∧ decodeTableWord 4 0b0011 = some .shortGap1 ∧
    decodeTableWord 8 0b10 = some .reset ∧ decodeTableWord 8 0b1011 = some .terminator ∧
    decodeTableWord 8 12 = none := by decide

/-! ### Symbol words, tables and the byte order -/

/-- 95_test_vectors.md V5. -/
theorem test_pack_vectors :
    pack 1 9000 0 4500 = 0x1194A328 ∧ pack 1 32767 0 4500 = 0x1194FFFF ∧ pack 1 620 0 32767 = 0x7FFF826C ∧
    pack 0 32767 0 32767 = 0x7FFF7FFF ∧ pack 1 1 0 1 = 0x00018001 ∧ pack 0 1 0 1 = 0x00010001 ∧
    pack 1 620 0 0 = 0x0000826C ∧ unpack 0x1194A328 = ⟨1, 9000, 0, 4500⟩ := by decide

/-- 95_test_vectors.md V6. -/
theorem test_new_builds_refset :
    (out (exec (.new refset) State.reset)).x =
      #v[0x1194A328, 0x0000826C, 0x4E20826C, 0x7530826C, 0x13881388, 0x021C826C, 0x0640826C, 0x021C826C] ∧
    (out (exec (.new refset) State.reset)).bit0 = 0x021C826C ∧
    (out (exec (.new refset) State.reset)).bit1 = 0x0640826C := by decide

/-- 95_test_vectors.md V7. -/
theorem test_wave_of_the_long_gap :
    segs [0x7530826C, 0x13881388] = [(1, 620), (0, 30000), (0, 5000), (0, 5000)] ∧
    wave [0x7530826C, 0x13881388] = [(1, 620), (0, 40000)] ∧ wave [0x0000826C] = [(1, 620)] ∧
    holdLevel [0x0000826C] = some 0 := by decide

/-- 95_test_vectors.md V8. -/
theorem test_valid_tables :
    validTable refset = true ∧ validTable bad = false ∧ validTable { refset with tLeadH := 32768 } = false ∧
    validTable { refset with tLeadH := 32767 } = true ∧ validTable { refset with tTermH := 0 } = false ∧
    validTable { refset with tLgbL1 := 5001 } = false ∧
    validTable { refset with tLgaL := 32767, tLgbL0 := 32767, tLgbL1 := 32767, tLgapTotal := 98301 } = true ∧
    validTable { refset with tLgaL := 1, tLgbL0 := 1, tLgbL1 := 1, tLgapTotal := 3 } = true := by decide

/-- 95_test_vectors.md V24, both byte orders. -/
theorem test_field_byte_order :
    scanCodeOfFields .le 0x12345678 0x9ABCDEF0 0x0F0F0F0F 0x80000001 =
      #v[0x78, 0x56, 0x34, 0x12, 0xF0, 0xDE, 0xBC, 0x9A, 0x0F, 0x0F, 0x0F, 0x0F, 0x01, 0x00, 0x00, 0x80] ∧
    scanCodeOfFields .be 0x12345678 0x9ABCDEF0 0x0F0F0F0F 0x80000001 =
      #v[0x12, 0x34, 0x56, 0x78, 0x9A, 0xBC, 0xDE, 0xF0, 0x0F, 0x0F, 0x0F, 0x0F, 0x80, 0x00, 0x00, 0x01] := by
  decide

/-- 30_encoding.md R76, R77. -/
theorem test_response_codes :
    Status.none.bits = 0b00 ∧ Status.completed.bits = 0b01 ∧ Status.full.bits = 0b10 ∧ Err.ok.code = 0b00 ∧
    Err.configError.code = 0b01 ∧ Err.resourceError.code = 0b10 ∧ Err.contractViolation.code = 0b11 := by decide

/-! ### The frame steps: the worked examples of 43_frame_steps.md R144 to R155 -/

/-- R144. -/
theorem test_leading1 :
    (out (exec .leading1 (midCall 0 0 0 scA 1))).rsp = ⟨.ok, ⟨false, false⟩, [letter 'L']⟩ ∧
    cursors (out (exec .leading1 (midCall 0 0 0 scA 1))) = (1, 0, 0) := by decide

/-- R145. -/
theorem test_data1Bits :
    (out (exec .data1Bits (midCall 1 0 0 scA 4))).rsp = ⟨.ok, ⟨false, true⟩, ['1', '0', '1', '0'].map letter⟩ ∧
    cursors (out (exec .data1Bits (midCall 1 0 0 scA 4))) = (1, 4, 0) := by decide

/-- 95_test_vectors.md V9, fourth row: resumed inside byte 1, stopped inside byte 2. -/
theorem test_data1Bits_across_bytes :
    (out (exec .data1Bits (midCall 1 9 0 scV9 8))).rsp.dst =
      ['0', '0', '0', '0', '0', '0', '1', '1'].map letter ∧
    cursors (out (exec .data1Bits (midCall 1 9 0 scV9 8))) = (1, 17, 0) := by decide

/-- R146. -/
theorem test_data1Suffix :
    (out (exec .data1Suffix (midCall 2 0 0 scA 1))).rsp = ⟨.ok, ⟨false, true⟩, [letter '0']⟩ ∧
    cursors (out (exec .data1Suffix (midCall 2 0 0 scA 1))) = (2, 0, 1) := by decide

/-- R147. -/
theorem test_shortGap1 :
    (out (exec .shortGap1 (midCall 3 0 0 scA 1))).rsp = ⟨.ok, ⟨false, false⟩, [letter 'S']⟩ ∧
    cursors (out (exec .shortGap1 (midCall 3 0 0 scA 1))) = (4, 0, 0) := by decide

/-- R148: the five shapes of the bits 27 to 31, the call goes on. -/
theorem test_data2Bits :
    (out (exec .data2Bits (midCall 4 27 0 scA 64))).rsp.dst = ['0', '1', '0', '1', '0'].map letter ∧
    cursors (out (exec .data2Bits (midCall 4 27 0 scA 64))) = (5, 0, 0) ∧
    (out (exec .data2Bits (midCall 4 27 0 scA 64))).busy = true := by decide

/-- R149. -/
theorem test_longGap :
    (out (exec .longGap (midCall 5 0 1 scA 1))).rsp = ⟨.ok, ⟨false, false⟩, [letter 'g']⟩ ∧
    cursors (out (exec .longGap (midCall 5 0 1 scA 1))) = (6, 0, 0) := by decide

/-- R150. -/
theorem test_leading2 :
    (out (exec .leading2 (midCall 6 0 0 scA 1))).rsp = ⟨.ok, ⟨false, false⟩, [letter 'L']⟩ ∧
    cursors (out (exec .leading2 (midCall 6 0 0 scA 1))) = (7, 0, 0) := by decide

/-- R151. -/
theorem test_data3Bits :
    (out (exec .data3Bits (midCall 7 0 0 scA 1))).rsp = ⟨.ok, ⟨false, true⟩, [letter '1']⟩ ∧
    cursors (out (exec .data3Bits (midCall 7 0 0 scA 1))) = (7, 1, 0) := by decide

/-- The field of Data3Bits: `0x0F` of ScanCode `C` (95_test_vectors.md V25, call 11: `00001`). -/
theorem test_data3Bits_field :
    (out (exec .data3Bits (midCall 7 0 0 scC 5))).rsp.dst = ['0', '0', '0', '0', '1'].map letter := by decide

/-- R152. -/
theorem test_data3Suffix :
    (out (exec .data3Suffix (midCall 8 0 0 scA 3))).rsp = ⟨.ok, ⟨false, false⟩, ['0', '1', '0'].map letter⟩ ∧
    cursors (out (exec .data3Suffix (midCall 8 0 0 scA 3))) = (9, 0, 0) := by decide

/-- R153. -/
theorem test_shortGap2 :
    (out (exec .shortGap2 (midCall 9 0 0 scA 1))).rsp = ⟨.ok, ⟨false, false⟩, [letter 'S']⟩ ∧
    cursors (out (exec .shortGap2 (midCall 9 0 0 scA 1))) = (10, 0, 0) := by decide

/-- R154: the twelve shapes of the bits 20 to 31, the call goes on. -/
theorem test_data4Bits :
    (out (exec .data4Bits (midCall 10 20 0 scA 64))).rsp.dst =
      ['1', '0', '1', '0', '1', '0', '1', '0', '1', '0', '1', '0'].map letter ∧
    cursors (out (exec .data4Bits (midCall 10 20 0 scA 64))) = (11, 0, 0) ∧
    (out (exec .data4Bits (midCall 10 20 0 scA 64))).rem = 52 := by decide

/-- The field of Data4Bits: `0x80` of ScanCode `C` (95_test_vectors.md V25, call 16: `1000`). -/
theorem test_data4Bits_field :
    (out (exec .data4Bits (midCall 10 0 0 scC 4))).rsp.dst = ['1', '0', '0', '0'].map letter ∧
    cursors (out (exec .data4Bits (midCall 10 0 0 scC 4))) = (10, 4, 0) := by decide

/-- R155. -/
theorem test_terminator :
    (out (exec .terminator (midCall 11 0 0 scA 1))).rsp = ⟨.ok, ⟨true, false⟩, [letter 'T']⟩ ∧
    cursors (out (exec .terminator (midCall 11 0 0 scA 1))) = (0, 0, 0) := by decide

/-! ### The host operations -/

/-- The source's example, first call (95_test_vectors.md V2). -/
theorem test_encode_capacity_5 :
    (out (exec (.encode scA 5) fresh)).rsp = ⟨.ok, ⟨false, true⟩, ['L', '1', '0', '1', '0'].map letter⟩ ∧
    cursors (out (exec (.encode scA 5) fresh)) = (1, 4, 0) := by decide

/-- 95_test_vectors.md V20 (b): three units of capacity stay unused. -/
theorem test_encode_around_the_terminator :
    (out (exec (.encode scA 5) (atStep 10 31 0))).rsp = ⟨.ok, ⟨true, false⟩, ['0', 'T'].map letter⟩ ∧
    cursors (out (exec (.encode scA 5) (atStep 10 31 0))) = (0, 0, 0) := by decide

/-- 95_test_vectors.md V27. -/
theorem test_reset_in_mid_frame :
    (out (exec .reset (atStep 4 13 0))).rsp = ⟨.ok, ⟨false, false⟩, []⟩ ∧
    cursors (out (exec .reset (atStep 4 13 0))) = (0, 0, 0) := by decide

/-- 44_host_operations.md R174, worked example. -/
theorem test_destroy_then_encode :
    (out (exec .destroy fresh)).rsp.err = .ok ∧
    (out (exec (.encode scA 10) (out (exec .destroy fresh)))).rsp.err = .contractViolation ∧
    (out (exec (.encode scA 10) (out (exec .destroy fresh)))).fault = true := by decide

/-- 95_test_vectors.md V26: a table that is not valid, and the priority of the lifecycle over it. -/
theorem test_new_bad :
    (out (exec (.new bad) unbuilt)).rsp.err = .configError ∧ (out (exec (.new bad) unbuilt)).fault = false ∧
    (out (exec (.new bad) fresh)).rsp.err = .contractViolation ∧ (out (exec (.new bad) fresh)).fault = true := by
  decide

/-- 70_reset_and_hazards.md R210. -/
theorem test_hardware_reset_clears_the_fault :
    (out (step { dead with inputs := [.hwReset] })).fault = false ∧
    (out (step { dead with inputs := [.hwReset] })).built = false := by decide

/-! ### Witnesses: every hypothesis can be met -/

theorem test_witness_DecodeOfEncode :
    (Instr.new refset).wellFormed = true ∧ (Instr.encode scA 0).wellFormed = true ∧
    (Instr.encode scA 65535).wellFormed = true ∧ Instr.terminator.wellFormed = true := by decide

theorem test_witness_DecodedInstructions :
    decode (.cmd ⟨0b01, refset, scA, 0xFFFF⟩) = .ok (.encode scA 65535) ∧ decode (.step 11) = .ok .terminator :=
  ⟨rfl, rfl⟩

/-- A command with other values in the fields its operation ignores: NEW, ENCODE, RESET. -/
theorem test_witness_UnusedOperandFields :
    decode (.cmd ⟨0b00, refset, scA, 0⟩) = decode (.cmd ⟨0b00, refset, scC, 9⟩) ∧
    decode (.cmd ⟨0b01, refset, scA, 9⟩) = decode (.cmd ⟨0b01, bad, scA, 9⟩) ∧
    decode (.cmd ⟨0b10, refset, scA, 0⟩) = decode (.cmd ⟨0b10, bad, scC, 9⟩) :=
  ⟨rfl, rfl, rfl⟩

theorem test_witness_OnlyReservedStepSelectors :
    12 ≤ (12 : BitVec 4).toNat ∧ 12 ≤ (15 : BitVec 4).toNat ∧ (11 : BitVec 4).toNat < 12 := by decide

theorem test_witness_FieldBits :
    (.data4Bits, 10, 3) ∈ bits ∧ (midCall 10 0 0 scA 32).bcur = 0 ∧ 32 ≤ (midCall 10 0 0 scA 32).rem := by decide

theorem test_witness_ValidTable :
    validTable refset = true ∧
    validTable { refset with tLgaL := 32767, tLgbL0 := 32767, tLgbL1 := 32767, tLgapTotal := 98301 } = true := by
  decide

/-- One invalid table for each way of being invalid: a zero, a value above `DUR_MAX`, a wrong sum. -/
theorem test_witness_TableIsInvalid :
    validTable { refset with tTermH := 0 } = false ∧ validTable { refset with tLeadH := 32768 } = false ∧
    validTable { refset with tLgbL1 := 5001 } = false := by decide

theorem test_witness_NewBuilds :
    State.reset.fault = false ∧ State.reset.built = false ∧ validTable refset = true := by decide

theorem test_witness_NewWithAnInvalidTable :
    unbuilt.fault = false ∧ unbuilt.built = false ∧ validTable bad = false := by decide

theorem test_witness_ConfigErrorIsNotSticky :
    ∃ t, exec (.new bad) unbuilt = .next t ∧ t.rsp.err = .configError ∧ validTable refset = true :=
  ⟨_, rfl, by decide, by decide⟩

theorem test_witness_Destroy : ∃ t, fresh.Ready ∧ exec .destroy fresh = .next t ∧ validTable refset = true :=
  ⟨_, by decide, rfl, by decide⟩

theorem test_witness_FixedSuffix :
    (midCall 2 0 0 scA 3).Inv ∧ (midCall 2 0 0 scA 3).built = true ∧ (midCall 2 0 0 scA 3).lcur = 0 ∧
    3 ≤ (midCall 2 0 0 scA 3).rem := by decide

theorem test_witness_LongGap : fresh.Inv ∧ fresh.built = true := by decide

/-- Both ways in for NEW, both ways in for the others, and each of the three others. -/
theorem test_witness_OperationAgainstTheLifecycle :
    dead.fault = true ∧ fresh.built = true ∧ unbuilt.built = false ∧ NeedsBuilt (.encode scA 0) ∧
    NeedsBuilt .reset ∧ NeedsBuilt .destroy :=
  ⟨rfl, rfl, rfl, .inl ⟨scA, 0, rfl⟩, .inr (.inl rfl), .inr (.inr rfl)⟩

/-- Each kind of reserved combination at the edge of its range. -/
theorem test_witness_ReservedCursors :
    12 ≤ (atStep 12 0 0).cur.toNat ∧ (atStep 2 0 3).lcur = 3 ∧
    ((.data1Bits, 1, 0) ∈ bits ∧ (atStep 1 0 1).cur = 1 ∧ (atStep 1 0 1).lcur ≠ 0) ∧
    ((.leading1, 0, 0, 1) ∈ lits ∧ (atStep 0 1 0).cur = 0 ∧ (atStep 0 1 0).bcur ≠ 0) ∧
    ((.longGap, 5, 3, 2) ∈ lits ∧ (atStep 5 0 2).cur = 5 ∧ (2 : BitVec 2).toNat ≤ (atStep 5 0 2).lcur.toNat) := by
  decide

/-- The two errors that are raised. -/
theorem test_witness_RaisingWritesNothing :
    (∃ t, IsHostOp (.new bad) ∧ exec (.new bad) unbuilt = .next t ∧ t.rsp.err = .configError) ∧
    (∃ t, IsHostOp .reset ∧ exec .reset unbuilt = .next t ∧ t.rsp.err = .contractViolation) :=
  ⟨⟨_, .inl ⟨bad, rfl⟩, rfl, by decide⟩, ⟨_, .inr (.inr (.inl rfl)), rfl, by decide⟩⟩

theorem test_witness_SteadyState : fresh.Inv ∧ fresh.Ready ∧ (atStep 5 0 1).Inv ∧ (atStep 5 0 1).Ready :=
  ⟨by decide, by decide, by decide, by decide⟩

theorem test_witness_OnlyHardwareReset :
    ∃ t, ({ dead with inputs := [.hwReset] } : State).fault = true ∧
      step { dead with inputs := [.hwReset] } = .next t ∧ t.fault = false :=
  ⟨_, rfl, rfl, by decide⟩

theorem test_witness_OnlyNewAndDestroyChangeBuilt :
    (∃ t, exec (.new refset) unbuilt = .next t ∧ t.built ≠ unbuilt.built) ∧
    (∃ t, exec .destroy fresh = .next t ∧ t.built ≠ fresh.built) :=
  ⟨⟨_, rfl, by decide⟩, ⟨_, rfl, by decide⟩⟩

theorem test_witness_OnlyNewAndDestroyWrite :
    ∃ t, (∀ cfg, Instr.reset ≠ .new cfg) ∧ Instr.reset ≠ .destroy ∧ exec .reset fresh = .next t :=
  ⟨_, fun _ => by simp, by decide, rfl⟩

theorem test_witness_Reset : (atStep 4 13 0).Inv ∧ (atStep 4 13 0).Ready ∧ ∃ t, exec .reset (atStep 4 13 0) = .next t :=
  ⟨by decide, by decide, _, rfl⟩

theorem test_witness_HardwareReset :
    ({ dead with inputs := [.hwReset] } : State).busy = false ∧
    ∃ t, step { dead with inputs := [.hwReset] } = .next t :=
  ⟨rfl, _, rfl⟩

/-- A successful NEW, a RESET, an ENCODE that reports `complete`, and a start with capacity 1. -/
theorem test_witness_EntryPoint :
    (∃ t, exec (.new refset) unbuilt = .next t ∧ t.rsp.err = .ok) ∧
    (∃ t, exec .reset fresh = .next t ∧ t.rsp.err = .ok) ∧
    (∃ t, exec (.encode scA 1) (atStep 11 0 0) = .next t ∧ t.rsp.status.complete = true) ∧
    fresh.AtStart ∧ fresh.Ready :=
  ⟨⟨_, rfl, by decide⟩, ⟨_, rfl, by decide⟩, ⟨_, rfl, by decide⟩, by decide, by decide⟩

/-- A BITS row and a LIT row. -/
theorem test_witness_EveryStep :
    decode (.step 10) = .ok .data4Bits ∧ stepTable 10 = some ⟨.bits, 3, 0⟩ ∧
    decode (.step 5) = .ok .longGap ∧ stepTable 5 = some ⟨.lit, 3, 2⟩ :=
  ⟨rfl, rfl, rfl, rfl⟩

/-- The capacity that just ends a field, and one less. -/
theorem test_witness_BitsSteps :
    (.data1Bits, 1, 0) ∈ bits ∧ 32 ≤ (midCall 1 17 0 scA 15).bcur.toNat + (midCall 1 17 0 scA 15).rem ∧
    (midCall 1 17 0 scA 14).bcur.toNat + (midCall 1 17 0 scA 14).rem < 32 ∧ (1 : BitVec 4) ≠ 11 := by decide

/-- The capacity that just ends an array, and one less; the last step and another. -/
theorem test_witness_LiteralSteps :
    (.data3Suffix, 8, 5, 3) ∈ lits ∧ (midCall 8 0 2 scA 1).lcur.toNat < (3 : BitVec 2).toNat ∧
    (3 : BitVec 2).toNat ≤ (midCall 8 0 2 scA 1).lcur.toNat + (midCall 8 0 2 scA 1).rem ∧
    (midCall 8 0 2 scA 0).lcur.toNat + (midCall 8 0 2 scA 0).rem < (3 : BitVec 2).toNat ∧
    (.terminator, 11, 1, 1) ∈ lits ∧ (midCall 11 0 0 scA 1).lcur.toNat < (1 : BitVec 2).toNat := by decide

theorem test_witness_Terminator :
    (midCall 11 0 0 scA 1).Inv ∧ (midCall 11 0 0 scA 1).cur = 11 ∧ 0 < (midCall 11 0 0 scA 1).rem := by decide

/-- The cursor stays, rises by one, and goes from 11 to 0; the two ends of a RESET. -/
theorem test_witness_CursorNeverSkips :
    (decode (.step (midCall 1 0 0 scA 4).cur) = .ok .data1Bits ∧
      (out (exec .data1Bits (midCall 1 0 0 scA 4))).cur = 1) ∧
    (decode (.step (midCall 3 0 0 scA 1).cur) = .ok .shortGap1 ∧
      (out (exec .shortGap1 (midCall 3 0 0 scA 1))).cur = 4) ∧
    (decode (.step (midCall 11 0 0 scA 1).cur) = .ok .terminator ∧
      (out (exec .terminator (midCall 11 0 0 scA 1))).cur = 0) ∧
    (out (exec .reset (atStep 4 13 0))).rsp.err = .ok ∧ (out (exec .reset dead)).rsp.err ≠ .ok :=
  ⟨⟨rfl, by decide⟩, ⟨rfl, by decide⟩, ⟨rfl, by decide⟩, by decide, by decide⟩

/-- A paused BITS step, and a paused LIT step. -/
theorem test_witness_PausedStep :
    (decode (.step 1) = .ok .data1Bits ∧ stepTable 1 = some ⟨.bits, 0, 0⟩ ∧
      ∃ t, exec .data1Bits { atStep 1 0 0 with rem := 4 } = .next t ∧ t.rsp.status.bufferFull = true) ∧
    (decode (.step 5) = .ok .longGap ∧ stepTable 5 = some ⟨.lit, 3, 2⟩ ∧
      (atStep 5 0 0).lcur.toNat < (2 : BitVec 2).toNat ∧
      ∃ t, exec .longGap { atStep 5 0 0 with rem := 1 } = .next t ∧ t.rsp.status.bufferFull = true) :=
  ⟨⟨rfl, rfl, _, rfl, by decide⟩, ⟨rfl, rfl, by decide, _, rfl, by decide⟩⟩

theorem test_witness_StepsOnlyAppend :
    decode (.step 0) = .ok .leading1 ∧ ∃ t, exec .leading1 (midCall 0 0 0 scA 1) = .next t :=
  ⟨rfl, _, rfl⟩

/-- The invariant and the readiness of a state in mid-frame; the capacity that ends the frame, one less, none, and one
that ends on a step boundary. -/
theorem test_witness_OneCall :
    (atStep 10 31 0).Inv ∧ (atStep 10 31 0).Ready ∧ 141 ≤ (atStep 10 31 0).pos + 2 ∧ (atStep 10 31 0).pos + 1 < 141 ∧
    (atStep 10 31 0).pos + 1 ∈ baseTable ∧ (atStep 10 31 0).pos + 0 < 141 := by decide

/-- Capacities that reach the end, and capacities that do not. -/
theorem test_witness_Chunking :
    fresh.Inv ∧ fresh.Ready ∧ 141 ≤ fresh.pos + [5, 136].sum ∧ fresh.pos + [5, 135].sum < 141 := by decide

/-- The host operations of a run, among them a RESET and a NEW. -/
theorem test_witness_TransmissionRun :
    fresh.Inv ∧ fresh.Ready ∧
    (∀ i ∈ [Instr.encode scA 5, .reset, .new refset, .encode scA 136],
      IsHostOp i ∧ ∀ sc' cap, i = .encode sc' cap → sc' = scA) ∧
    ∃ r, transmissionRun [.encode scA 5, .reset, .new refset, .encode scA 136] fresh = some r := by
  refine ⟨by decide, by decide, ?_, _, rfl⟩
  simp [IsHostOp, NeedsBuilt]

/-- 70_reset_and_hazards.md R222: a run starts with an ENCODE in (0,0,0), and in no other way. -/
theorem test_starts_of_a_run :
    startsRun [.encode scA 2] fresh = true ∧ transmissionRun [.encode scA 2] (atStep 11 0 0) = none ∧
    transmissionRun [.encode scA 2] (atStep 2 0 1) = none ∧
    transmissionRun [.reset, .encode scA 2] fresh = none ∧ transmissionRun [] fresh = none := by decide

/-- 70_reset_and_hazards.md R222: the ends of a run. -/
theorem test_ends_of_a_run :
    transmissionRun [.encode scA 2, .reset] fresh = some ([letter 'L', letter '1'], .reset) ∧
    transmissionRun [.encode scA 2, .destroy] fresh = some ([letter 'L', letter '1'], .destroyed) ∧
    transmissionRun [.encode scA 2, .new refset] fresh = some ([letter 'L', letter '1'], .raised) ∧
    collectRun [.encode scA 2] (atStep 11 0 0) = ([letter 'T'], .completed) := by decide

theorem test_witness_FlagsAreNeverBothSet : ∃ t, exec (.encode scA 5) fresh = .next t := ⟨_, rfl⟩

/-- The three answers of an ENCODE. -/
theorem test_witness_FlagsTellTheHost :
    (atStep 10 31 0).Inv ∧ (atStep 10 31 0).Ready ∧
    (out (exec (.encode scA 5) (atStep 10 31 0))).rsp.status = ⟨true, false⟩ ∧
    (out (exec (.encode scA 1) (atStep 10 31 0))).rsp.status = ⟨false, false⟩ ∧
    (out (exec (.encode scA 1) (atStep 10 29 0))).rsp.status = ⟨false, true⟩ := by decide

theorem test_witness_EncodeAfterComplete :
    ∃ t, (atStep 11 0 0).Inv ∧ (atStep 11 0 0).Ready ∧ exec (.encode scC 1) (atStep 11 0 0) = .next t ∧
      t.rsp.status.complete = true ∧ (141 : Nat) ≤ 141 :=
  ⟨_, by decide, by decide, rfl, by decide, by decide⟩

theorem test_witness_ScanCodeIsSampled :
    ∃ t, fresh.Inv ∧ fresh.Ready ∧ fresh.AtStart ∧ (40 : Nat) < 141 ∧ (141 : Nat) ≤ 40 + 101 ∧
      exec (.encode scA 40) fresh = .next t :=
  ⟨_, by decide, by decide, by decide, by decide, by decide, rfl⟩

theorem test_witness_Payload :
    (∃ t, exec (.encode scA 7) (atStep 1 0 0) = .next t) ∧ (∃ u, exec (.encode scC 7) (atStep 1 0 0) = .next u) :=
  ⟨⟨_, rfl⟩, ⟨_, rfl⟩⟩

theorem test_witness_Capacities :
    (atStep 11 0 0).Inv ∧ (∃ t, exec (.encode scA 500) (atStep 11 0 0) = .next t) ∧
    (∃ u, exec (.encode scA 141) (atStep 11 0 0) = .next u) :=
  ⟨by decide, ⟨_, rfl⟩, ⟨_, rfl⟩⟩

/-- The first and the last resumption state. -/
theorem test_witness_Position :
    fresh.resumable = true ∧ fresh.pos = 0 ∧ (atStep 11 0 0).resumable = true ∧ (atStep 11 0 0).pos = 140 ∧
    (atStep 2 0 2).resumable = true ∧ (atStep 2 0 2).pos = 35 := by decide

/-- A step inside a call, a command, the reset input. -/
theorem test_witness_Invariant :
    (∃ t, (midCall 1 0 0 scA 4).Inv ∧ step (midCall 1 0 0 scA 4) = .next t) ∧
    (∃ t, ({ fresh with inputs := [.cmd ⟨0b10, refset, scA, 0⟩] } : State).Inv ∧
      step { fresh with inputs := [.cmd ⟨0b10, refset, scA, 0⟩] } = .next t) ∧
    (∃ t, ({ fresh with inputs := [.hwReset] } : State).Inv ∧ step { fresh with inputs := [.hwReset] } = .next t) :=
  ⟨⟨_, by decide, rfl⟩, ⟨_, by decide, rfl⟩, ⟨_, by decide, rfl⟩⟩

theorem test_witness_StepRuns :
    fresh.busy = false ∧ ({ fresh with inputs := [.cmd ⟨0b10, refset, scA, 0⟩] } : State).inputs =
      .cmd ⟨0b10, refset, scA, 0⟩ :: [] ∧
    (midCall 3 0 0 scA 1).busy = true ∧ decode (.step (midCall 3 0 0 scA 1).cur) = .ok .shortGap1 ∧
    (midCall 12 0 0 scA 1).busy = true ∧ 12 ≤ (midCall 12 0 0 scA 1).cur.toNat :=
  ⟨rfl, rfl, rfl, rfl, rfl, by decide⟩

theorem test_witness_Idle : fresh.busy = false ∧ fresh.inputs = [] := ⟨rfl, rfl⟩

/-- A placed host operation, and a placed frame step. -/
theorem test_witness_Placed :
    decodeTableWord 2 0b10 = some .reset ∧ IsHostOp .reset ∧ decodeTableWord 4 0b0011 = some .shortGap1 :=
  ⟨by decide, .inr (.inr (.inl rfl)), by decide⟩

theorem test_witness_EncodeIsTheRun : fresh.Ready ∧ fresh.resumable = true := by decide

end Sys2Proof.Tests
end

section
/-! The transmission order of a ScanCode field (20_memory.md R54): over the bytes of the span, over the field values,
and as the words that a BITS step writes. -/

open Sys2Proof Sys2Proof.Machine Sys2Proof.Rows

namespace Sys2Proof.Proofs

/-- Byte `j` of field `k + 1` is byte `4k + j` of the span (20_memory.md R54). -/
theorem fieldByteAddress_toNat (k j : BitVec 2) : (k ++ j).toNat = 4 * k.toNat + j.toNat := by
  rw [BitVec.toNat_append, ← Nat.shiftLeft_add_eq_or_of_lt j.isLt, Nat.shiftLeft_eq, Nat.mul_comm]

theorem byteOffset_toNat (i : BitVec 5) : (i.extractLsb' 3 2).toNat = i.toNat / 8 := by
  have hi := i.isLt
  simp only [BitVec.extractLsb'_toNat, Nat.shiftRight_eq_div_pow]
  omega

theorem bitOffset_toNat (i : BitVec 5) : (i.extractLsb' 0 3).toNat = i.toNat % 8 := by
  simp [BitVec.extractLsb'_toNat]

theorem memRead_eq_getD (sc : ScanCode) (a : BitVec 4) : memRead sc a = sc[a.toNat]?.getD 0 := by
  have ha : a.toNat < 16 := a.isLt
  simp [memRead, ha]

/-- R54 over the bytes of the span. -/
theorem fieldBit_eq_span_bit (sc : ScanCode) (k : BitVec 2) (i : BitVec 5) :
    fieldBit sc k i = (sc[4 * k.toNat + i.toNat / 8]?.getD 0).getLsbD (7 - i.toNat % 8) := by
  rw [fieldBit, memRead_eq_getD, fieldByteAddress_toNat, byteOffset_toNat, bitOffset_toNat]

/-- The span is the four field values in field order, four bytes each (20_memory.md R51). -/
theorem scanCodeOfFields_byte (order : ByteOrder) (d1 d2 d3 d4 : Word) (k : BitVec 2) (j : Nat) (hj : j < 4) :
    (scanCodeOfFields order d1 d2 d3 d4)[4 * k.toNat + j]?.getD 0 =
      fieldByte order ([d1, d2, d3, d4].getD k.toNat 0) j := by
  have hk := k.isLt
  generalize k.toNat = n at hk
  interval_cases n <;> interval_cases j <;> rfl

theorem fieldByte_le_getLsbD (d : Word) (j b : Nat) (hb : b < 8) :
    (fieldByte .le d j).getLsbD b = d.getLsbD (8 * j + b) := by
  simp [fieldByte, hb]

theorem fieldByte_be_getLsbD (d : Word) (j b : Nat) (hb : b < 8) :
    (fieldByte .be d j).getLsbD b = d.getLsbD (24 - 8 * j + b) := by
  simp [fieldByte, hb]

/-- R54 over the field values, for either byte order. -/
theorem fieldBit_scanCodeOfFields (order : ByteOrder) (d1 d2 d3 d4 : Word) (k : BitVec 2) (i : BitVec 5) :
    fieldBit (scanCodeOfFields order d1 d2 d3 d4) k i =
      (fieldByte order ([d1, d2, d3, d4].getD k.toNat 0) (i.toNat / 8)).getLsbD (7 - i.toNat % 8) := by
  have hi := i.isLt
  rw [fieldBit_eq_span_bit, scanCodeOfFields_byte _ _ _ _ _ _ _ (by omega)]

theorem fieldBit_le (d1 d2 d3 d4 : Word) (k : BitVec 2) (i : BitVec 5) :
    fieldBit (scanCodeOfFields .le d1 d2 d3 d4) k i =
      ([d1, d2, d3, d4].getD k.toNat 0).getLsbD (8 * (i.toNat / 8) + 7 - i.toNat % 8) := by
  have hpos : 8 * (i.toNat / 8) + (7 - i.toNat % 8) = 8 * (i.toNat / 8) + 7 - i.toNat % 8 := by omega
  rw [fieldBit_scanCodeOfFields, fieldByte_le_getLsbD _ _ _ (by omega), hpos]

theorem fieldBit_be (d1 d2 d3 d4 : Word) (k : BitVec 2) (i : BitVec 5) :
    fieldBit (scanCodeOfFields .be d1 d2 d3 d4) k i =
      ([d1, d2, d3, d4].getD k.toNat 0).getLsbD (31 - i.toNat) := by
  have hi := i.isLt
  have hpos : 24 - 8 * (i.toNat / 8) + (7 - i.toNat % 8) = 31 - i.toNat := by omega
  rw [fieldBit_scanCodeOfFields, fieldByte_be_getLsbD _ _ _ (by omega), hpos]

/-- Each row of `Rows.bits` is dispatched to the shared BITS step (43_frame_steps.md R140). -/
theorem exec_bits {i : Instr} {c : BitVec 4} {k : BitVec 2} (h : (i, c, k) ∈ bits) (s : State) :
    exec i s = .next (bitsStep c k s) := by
  simp only [bits, List.mem_cons, Prod.mk.injEq, List.not_mem_nil, or_false] at h
  rcases h with ⟨rfl, rfl, rfl⟩ | ⟨rfl, rfl, rfl⟩ | ⟨rfl, rfl, rfl⟩ | ⟨rfl, rfl, rfl⟩ <;> rfl

/-- A BITS step appends the shapes that the span and the capacity allow, whatever `cur` holds (41_bit_encoder.md
R121). -/
theorem bitsStep_dst (c : BitVec 4) (k : BitVec 2) (s : State) :
    (bitsStep c k s).rsp.dst = s.rsp.dst ++ bitShapes s k s.bcur.toNat (min s.rem (32 - s.bcur.toNat)) := by
  simp [bitsStep, bitsEncode_spec]

theorem bitShapes_getElem? (s : State) (k : BitVec 2) (b m j : Nat) (hj : j < m) :
    (bitShapes s k b m)[j]? = some (bitShape s (fieldBit s.sc k (BitVec.ofNat 5 (b + j)))) := by
  simp [bitShapes, hj]

/-- R54 as the words that a BITS step entered at the start of its field writes. -/
theorem bitsStep_dst_getElem? (c : BitVec 4) (k : BitVec 2) {s : State} (hb : s.bcur = 0) (hr : 32 ≤ s.rem)
    (j : BitVec 5) :
    (bitsStep c k s).rsp.dst[s.rsp.n + j.toNat]? = some (bitShape s (fieldBit s.sc k j)) := by
  have hwhole : min s.rem (32 - s.bcur.toNat) = 32 := by simp [hb, hr]
  rw [bitsStep_dst, hwhole, Response.n, List.getElem?_append_right (Nat.le_add_right _ _), Nat.add_sub_cancel_left,
    bitShapes_getElem? _ _ _ _ _ j.isLt]
  simp [hb]

/-- Settles O7: the address arithmetic of `fieldBit`, the layout of the span, and the closed form of a BITS step. -/
theorem fieldBitsAreSentMostSignificantFirstInByteOrder :
    Obligations.FieldBitsAreSentMostSignificantFirstInByteOrder := by
  unfold Obligations.FieldBitsAreSentMostSignificantFirstInByteOrder
  refine ⟨fieldBit_eq_span_bit, fun d1 d2 d3 d4 k i => ⟨fieldBit_le d1 d2 d3 d4 k i, fieldBit_be d1 d2 d3 d4 k i⟩, ?_⟩
  intro i c k hrow s hb hr
  exact ⟨bitsStep c k s, exec_bits hrow s, bitsStep_dst_getElem? c k hb hr⟩

end Sys2Proof.Proofs
end

section
/-! The fixed suffix (40_timing_and_primitives.md R105): what its registers hold, and the words that the two suffix steps
write, by way of the words that any LIT step writes (42_literal_encoder.md R131). -/

open Sys2Proof Sys2Proof.Machine Sys2Proof.Rows

namespace Sys2Proof.Proofs

/-- Each row of `Rows.lits` is dispatched to the shared LIT step (43_frame_steps.md R140). -/
theorem exec_lits {i : Instr} {c : BitVec 4} {a : BitVec 3} {n : BitVec 2} (h : (i, c, a, n) ∈ lits) (s : State) :
    exec i s = .next (litStep c a n s) := by
  simp only [lits, List.mem_cons, Prod.mk.injEq, List.not_mem_nil, or_false] at h
  rcases h with ⟨rfl, rfl, rfl, rfl⟩ | ⟨rfl, rfl, rfl, rfl⟩ | ⟨rfl, rfl, rfl, rfl⟩ | ⟨rfl, rfl, rfl, rfl⟩ |
    ⟨rfl, rfl, rfl, rfl⟩ | ⟨rfl, rfl, rfl, rfl⟩ | ⟨rfl, rfl, rfl, rfl⟩ | ⟨rfl, rfl, rfl, rfl⟩ <;> rfl

/-- A LIT step appends the words that the array and the capacity allow, whatever `cur` holds (42_literal_encoder.md
R131). -/
theorem litStep_dst (c : BitVec 4) (a : BitVec 3) {n : BitVec 2} {s : State} (hl : s.lcur.toNat < n.toNat) :
    (litStep c a n s).rsp.dst =
      s.rsp.dst ++ litWords s a s.lcur.toNat (min s.rem (n.toNat - s.lcur.toNat)) := by
  simp [litStep, litEncode_spec a n s hl]

/-- A LIT step entered at count 0 with room for its whole array appends the whole array. -/
theorem litStep_dst_whole (c : BitVec 4) (a : BitVec 3) {n : BitVec 2} {s : State} (hl : s.lcur = 0)
    (hn : 0 < n.toNat) (hr : n.toNat ≤ s.rem) :
    (litStep c a n s).rsp.dst = s.rsp.dst ++ litWords s a 0 n.toNat := by
  rw [litStep_dst c a (by simpa [hl] using hn)]
  simp [hl, hr]

theorem litWords_suffix {s : State} (hs : s.SuffixBuilt) : litWords s 5 0 3 = [s.bit0, s.bit1, s.bit0] := by
  obtain ⟨h5, h6, h7⟩ := hs
  calc litWords s 5 0 3 = [readPrim s 5, readPrim s 6, readPrim s 7] := rfl
    _ = [s.bit0, s.bit1, s.bit0] := by rw [h5, h6, h7]

/-- R105 as the words of a step of the row (start 5, length 3): both suffix steps are of this row. -/
theorem exec_suffix_emits {i : Instr} {c : BitVec 4} (hrow : (i, c, 5, 3) ∈ lits) {s : State} (hs : s.SuffixBuilt)
    (hl : s.lcur = 0) (hr : 3 ≤ s.rem) :
    ∃ t, exec i s = .next t ∧ t.rsp.dst = s.rsp.dst ++ [s.bit0, s.bit1, s.bit0] := by
  refine ⟨litStep c 5 3 s, exec_lits hrow s, ?_⟩
  rw [← litWords_suffix hs]
  exact litStep_dst_whole c 5 hl (by decide) hr

/-- Settles O14: the primitives that the invariant gives a built encoder, and the closed form of a LIT step. -/
theorem fixedSuffixIsTheShapesZeroOneZero : Obligations.FixedSuffixIsTheShapesZeroOneZero := by
  unfold Obligations.FixedSuffixIsTheShapesZeroOneZero
  intro s ⟨_, _, hprims, _, _⟩ hb
  have hs : s.SuffixBuilt := suffixBuilt_of_primsBuilt hprims hb
  have ⟨h5, h6, h7⟩ := hs
  exact ⟨h5, h6, h7, fun hl hr =>
    ⟨exec_suffix_emits (c := 2) (by simp [lits]) hs hl hr, exec_suffix_emits (c := 8) (by simp [lits]) hs hl hr⟩⟩

end Sys2Proof.Proofs
end

section
/-! The end of a frame (43_frame_steps.md R156): the terminator step with capacity left. -/

open Sys2Proof Sys2Proof.Machine Sys2Proof.Rows

namespace Sys2Proof.Proofs

/-- The terminator's position is the last index of the frame, and its one symbol ends the frame (30_encoding.md R78). -/
theorem pos_and_stepEnd_of_terminator {s : State} (hc : s.cur = 11) (hb : s.bcur = 0) (hl : s.lcur = 0) :
    s.pos = 140 ∧ stepEnd s.cur = 141 := by
  rw [pos_start hb hl, hc]
  decide

/-- A resumption state at the terminator has both sub-encoder cursors at 0: the step has one symbol (10_state.md R23). -/
theorem cursors_of_resumable_terminator {s : State} (hr : s.resumable = true) (hc : s.cur = 11) :
    s.bcur = 0 ∧ s.lcur = 0 := by
  have ⟨hb, hl⟩ := (resumable_lit (a := 1) (n := 1) rfl hc).1 hr
  exact ⟨hb, BitVec.eq_of_toNat_eq (Nat.lt_one_iff.1 hl)⟩

/-- Settles O34: the terminator is a LIT step of length 1 at position 140, so any capacity reaches its end. -/
theorem terminatorEndsTheFrame : Obligations.TerminatorEndsTheFrame := by
  unfold Obligations.TerminatorEndsTheFrame
  intro s ⟨hr, _⟩ hc hrem
  obtain ⟨hb, hl⟩ := cursors_of_resumable_terminator hr hc
  obtain ⟨hpos, hend⟩ := pos_and_stepEnd_of_terminator hc hb hl
  have hstep : FrameStepped s (litStep 11 1 1 s) := litStep_spec s 11 1 1 rfl hc hr
  obtain ⟨hcur, hbcur, hlcur, hstatus, hbusy⟩ := hstep.last hc (by omega)
  have hcount : min s.rem (stepEnd s.cur - s.pos) = 1 := by omega
  refine ⟨litStep 11 1 1 s, exec_lits (by simp [lits]) s, ?_, ⟨hcur, hbcur, hlcur⟩, hstatus, hbusy, ?_⟩
  · exact litStep_dst_whole 11 1 hl (by decide) hrem
  · rw [hstep.rem, hcount]

end Sys2Proof.Proofs
end

section
/-! How `cur` moves (43_frame_steps.md R162): the frame steps in every state, reserved cursor combinations included, by
way of their sub-encoders; then the other host operations and the hardware reset input. -/

open Sys2Proof Sys2Proof.Machine Sys2Proof.Rows

namespace Sys2Proof.Proofs

/-- `litLoop_spec` from any count: beyond the array nothing is copied. -/
theorem litLoop_spec_of_any_count (a : BitVec 3) (len fuel l : Nat) (s : State) (hf : len - l ≤ fuel) :
    litLoop a len fuel l s =
      (l + min s.rem (len - l), s.emitAll (litWords s a l (min s.rem (len - l)))) := by
  by_cases hl : l ≤ len
  · exact litLoop_spec a len fuel l s hl hf
  · have hm : min s.rem (len - l) = 0 := by omega
    have hstop : ¬(l < len ∧ 0 < s.rem) := by omega
    cases fuel <;> simp [litLoop, hm, hstop, litWords]

/-- `litEncode_spec` in every state, the reserved counts included (42_literal_encoder.md R131). -/
theorem litEncode_spec_of_any_count (a : BitVec 3) (len : BitVec 2) (s : State) :
    litEncode a len s =
      (if s.lcur.toNat + min s.rem (len.toNat - s.lcur.toNat) = len.toNat then .complete else .full,
        { s.emitAll (litWords s a s.lcur.toNat (min s.rem (len.toNat - s.lcur.toNat))) with
          lcur := if s.lcur.toNat + min s.rem (len.toNat - s.lcur.toNat) = len.toNat then 0
            else BitVec.ofNat 2 (s.lcur.toNat + min s.rem (len.toNat - s.lcur.toNat)) }) := by
  have hlen := len.isLt
  rw [litEncode, litLoop_spec_of_any_count a len.toNat 3 _ s (by omega)]
  by_cases hfit : s.lcur.toNat + min s.rem (len.toNat - s.lcur.toNat) = len.toNat
  · simp only [hfit, if_true]
  · simp only [hfit, if_false]

/-- A sub-encoder leaves `cur` alone (43_frame_steps.md R140). -/
theorem stepRun_cur (d : StepDesc) (s : State) : (stepRun d s).2.cur = s.cur := by
  cases hk : d.kind with
  | bits => simp [stepRun, hk, bitsEncode_spec]
  | lit => simp [stepRun, hk, litEncode_spec_of_any_count]

/-- The payload changes neither the report of a sub-encoder nor how many words it writes (41_bit_encoder.md R121,
42_literal_encoder.md R131). -/
theorem stepRun_payload (d : StepDesc) (s : State) (sc : ScanCode) :
    (stepRun d { s with sc := sc }).1 = (stepRun d s).1 ∧
      (stepRun d { s with sc := sc }).2.rsp.n = (stepRun d s).2.rsp.n := by
  cases hk : d.kind with
  | bits => simp [stepRun, hk, bitsEncode_spec, Response.n]
  | lit => simp [stepRun, hk, litEncode_spec_of_any_count, Response.n]

/-- A selector that decodes is one of the twelve (30_encoding.md R80). -/
theorem selector_le_of_decode {c : BitVec 4} {i : Instr} (h : decode (.step c) = .ok i) : c.toNat ≤ 11 := by
  have hreserved : ∀ c : BitVec 4, c.toNat ≤ 11 ∨ decode (.step c) = .error (.reservedStep c) := by decide
  exact (hreserved c).resolve_right fun herr => nomatch h.symm.trans herr

/-- The instruction that a selector decodes to runs the sub-encoder of its row of the step table and then the arms of
R141 (43_frame_steps.md R140, 30_encoding.md R78). -/
theorem exec_of_decode_step {c : BitVec 4} {i : Instr} (h : decode (.step c) = .ok i) :
    ∃ d, stepTable c = some d ∧ ∀ s, exec i s = .next ((stepRun d s).2.afterStep c (stepRun d s).1) := by
  rcases cur_cases c (selector_le_of_decode h) with
    rfl | rfl | rfl | rfl | rfl | rfl | rfl | rfl | rfl | rfl | rfl | rfl <;>
    (cases h; exact ⟨_, rfl, fun _ => rfl⟩)

/-- The arms of R141 keep `cur`, advance it below 11, or take it from 11 to 0. -/
theorem afterStep_cur_cases {c : BitVec 4} (hc : c.toNat ≤ 11) {s : State} (hs : s.cur = c) (st : SubStatus) :
    (s.afterStep c st).cur = c ∨ (c.toNat < 11 ∧ (s.afterStep c st).cur.toNat = c.toNat + 1) ∨
      (c = 11 ∧ (s.afterStep c st).cur = 0) := by
  have hsucc : ∀ c : BitVec 4, c.toNat ≤ 11 → c ≠ 11 → c.toNat < 11 ∧ (c + 1).toNat = c.toNat + 1 := by decide
  cases st with
  | full => exact .inl (by simpa using hs)
  | complete =>
    by_cases h11 : c = 11
    · exact .inr (.inr ⟨h11, by simp [h11]⟩)
    · obtain ⟨hlt, hnext⟩ := hsucc c hc h11
      rw [afterStep_cur]
      exact .inr (.inl ⟨hlt, by simpa only [if_neg h11] using hnext⟩)

/-- R162 for the frame step that `cur` selects. -/
theorem frame_step_moves_cur {i : Instr} {s t : State} (h : decode (.step s.cur) = .ok i) (ht : exec i s = .next t) :
    t.cur = s.cur ∨ (s.cur.toNat < 11 ∧ t.cur.toNat = s.cur.toNat + 1) ∨ (s.cur = 11 ∧ t.cur = 0) := by
  obtain ⟨d, -, hrun⟩ := exec_of_decode_step h
  cases (hrun s).symm.trans ht
  exact afterStep_cur_cases (selector_le_of_decode h) (stepRun_cur d s) _

/-- The payload changes neither the successor of a frame step nor its number of symbols (43_frame_steps.md R162). -/
theorem frame_step_payload {c : BitVec 4} {i : Instr} {s t : State} (sc : ScanCode) (h : decode (.step c) = .ok i)
    (ht : exec i s = .next t) :
    ∃ u, exec i { s with sc := sc } = .next u ∧ u.cur = t.cur ∧ u.rsp.n = t.rsp.n := by
  obtain ⟨d, -, hrun⟩ := exec_of_decode_step h
  cases (hrun s).symm.trans ht
  obtain ⟨hstatus, hcount⟩ := stepRun_payload d s sc
  refine ⟨_, hrun _, ?_, ?_⟩
  · simp only [afterStep_cur, hstatus, stepRun_cur]
  · simpa [Response.n] using hcount

/-- A host operation that answers OK puts `cur` to 0, and one that raises leaves it (43_frame_steps.md R162,
60_exceptions.md R193). -/
def CurZeroedOrKept (s t : State) : Prop :=
  (t.rsp.err = .ok → t.cur = 0) ∧ (t.rsp.err ≠ .ok → t.cur = s.cur)

theorem curZeroedOrKept_of_ok {s t : State} (herr : t.rsp.err = .ok) (hcur : t.cur = 0) : CurZeroedOrKept s t :=
  ⟨fun _ => hcur, fun h => absurd herr h⟩

theorem curZeroedOrKept_of_raise (s : State) {e : Err} (he : e ≠ .ok) : CurZeroedOrKept s (s.raise e) :=
  ⟨fun h => absurd (by simpa using h) he, fun _ => raise_cur s e⟩

theorem execNew_cur {cfg : TimingTable} {s t : State} (ht : execNew cfg s = .next t) : CurZeroedOrKept s t := by
  by_cases hp : s.fault = false ∧ s.built = false
  · cases hv : validTable cfg with
    | true =>
      cases (execNew_accepted hp.1 hp.2 hv).symm.trans ht
      exact curZeroedOrKept_of_ok rfl rfl
    | false =>
      cases (execNew_invalid hp.1 hp.2 hv).symm.trans ht
      exact curZeroedOrKept_of_raise s (by decide)
  · have hrefused : s.fault = true ∨ s.built = true := by simpa [imp_iff_not_or] using hp
    cases (execNew_refused hrefused).symm.trans ht
    exact curZeroedOrKept_of_raise s (by decide)

theorem execReset_cur {s t : State} (ht : execReset s = .next t) : CurZeroedOrKept s t := by
  by_cases hp : s.Ready
  · cases (execReset_accepted hp).symm.trans ht
    exact curZeroedOrKept_of_ok rfl rfl
  · cases (execReset_refused hp).symm.trans ht
    exact curZeroedOrKept_of_raise s (by decide)

theorem execDestroy_cur {s t : State} (ht : execDestroy s = .next t) : CurZeroedOrKept s t := by
  by_cases hp : s.Ready
  · cases (execDestroy_accepted hp).symm.trans ht
    exact curZeroedOrKept_of_ok rfl rfl
  · cases (execDestroy_refused hp).symm.trans ht
    exact curZeroedOrKept_of_raise s (by decide)

/-- R162 for NEW, RESET and DESTROY. -/
theorem host_operation_cur {i : Instr} {s t : State} (hi : IsHostOp i) (hencode : ∀ sc cap, i ≠ .encode sc cap)
    (ht : exec i s = .next t) : CurZeroedOrKept s t := by
  rcases hi with ⟨cfg, rfl⟩ | ⟨sc, cap, rfl⟩ | rfl | rfl
  · exact execNew_cur ht
  · exact absurd rfl (hencode sc cap)
  · exact execReset_cur ht
  · exact execDestroy_cur ht

/-- Between operations a step with the reset input presented is the hardware reset (70_reset_and_hazards.md R210). -/
theorem step_of_resetInput {s : State} {rest : List HostEvent} (hb : s.busy = false)
    (hin : s.inputs = .hwReset :: rest) : step s = .next { s.hwReset with inputs := rest } := by
  simp [step, nextFetch, hb, hin]

/-- Settles O35: a frame step by the arms of R141, since its sub-encoder leaves `cur` alone and reports alike for every
payload; a host operation by whether it is accepted; the reset input by its effect. -/
theorem cursorNeverSkipsAStep : Obligations.CursorNeverSkipsAStep := by
  unfold Obligations.CursorNeverSkipsAStep
  refine ⟨fun i s t => frame_step_moves_cur, fun i s t sc => frame_step_payload sc,
    fun i s t => host_operation_cur, fun s t rest hb hin ht => ?_⟩
  cases (step_of_resetInput hb hin).symm.trans ht
  exact hwReset_cur s

end Sys2Proof.Proofs
end

section
/-! The steady state (60_exceptions.md R196): an accepted ENCODE or RESET answers OK and leaves an encoder that accepts the
next one. -/

open Sys2Proof Sys2Proof.Machine

namespace Sys2Proof.Proofs

/-- What every frame step keeps, the loop of FRAME_RUN keeps (43_frame_steps.md R141). -/
theorem frameLoop_keeps {P : State → Prop} (hstep : ∀ s, P s → P (frameStep s)) (fuel : Nat) {s : State} (hs : P s) :
    P (frameLoop fuel s) := by
  induction fuel generalizing s with
  | zero => exact hs
  | succ fuel ih =>
    rw [frameLoop]
    cases (frameStep s).busy with
    | true => exact ih (hstep s hs)
    | false => exact hstep s hs

/-- The encoder is built and unfaulted, no cursor is reserved, and the operation in progress has raised nothing
(60_exceptions.md R196). -/
def Steady (s : State) : Prop :=
  s.Ready ∧ s.resumable = true ∧ s.rsp.err = .ok

/-- A frame step at a resumption state raises nothing and reaches a resumption state. -/
theorem frameStep_keeps_steady (s : State) (h : Steady s) : Steady (frameStep s) := by
  obtain ⟨⟨hbuilt, hfault⟩, hresumable, herr⟩ := h
  have hdone := frameStep_spec s hresumable
  exact ⟨⟨hdone.built.trans hbuilt, hdone.fault.trans hfault⟩, hdone.resumable, hdone.err.trans herr⟩

theorem beginCall_steady {s : State} (hready : s.Ready) (hresumable : s.resumable = true) (sc : ScanCode) (cap : Nat) :
    Steady (s.beginCall sc cap) :=
  ⟨hready, hresumable, rfl⟩

theorem frameRun_steady {s : State} (hready : s.Ready) (hresumable : s.resumable = true) (sc : ScanCode) (cap : Nat) :
    Steady (frameRun sc cap s) :=
  frameLoop_keeps frameStep_keeps_steady 12 (beginCall_steady hready hresumable sc cap)

/-- Settles O19: ENCODE is accepted and each of its frame steps keeps `Steady`; RESET is accepted and only resets the
cursors. -/
theorem steadyStateCannotFail : Obligations.SteadyStateCannotFail := by
  unfold Obligations.SteadyStateCannotFail
  intro s hinv hready
  obtain ⟨hresumable, -⟩ := hinv
  refine ⟨fun sc cap => ?_, ?_⟩
  · obtain ⟨hready', -, herr⟩ := frameRun_steady hready hresumable sc cap
    exact ⟨_, execEncode_accepted hready hresumable, herr, hready'⟩
  · exact ⟨_, execReset_accepted hready, rfl, hready⟩

end Sys2Proof.Proofs
end

section
/-! The entry point (70_reset_and_hazards.md R211, R212): what NEW and RESET leave when they answer OK, what an ENCODE
leaves when it reports `complete`, and the first word of a call from the entry point. -/

open Sys2Proof Sys2Proof.Machine Sys2Proof.Rows

namespace Sys2Proof.Proofs

theorem raise_err_ne_ok (s : State) {e : Err} (he : e ≠ .ok) : (s.raise e).rsp.err ≠ .ok := by
  simpa using he

/-- Only an accepted NEW with a valid table answers OK (44_host_operations.md R171). -/
theorem eq_construct_of_new_ok {cfg : TimingTable} {s t : State} (ht : exec (.new cfg) s = .next t)
    (hok : t.rsp.err = .ok) : t = s.construct cfg := by
  change execNew cfg s = .next t at ht
  by_cases hp : s.fault = false ∧ s.built = false
  · cases hv : validTable cfg with
    | true =>
      cases (execNew_accepted hp.1 hp.2 hv).symm.trans ht
      rfl
    | false =>
      cases (execNew_invalid hp.1 hp.2 hv).symm.trans ht
      exact absurd hok (raise_err_ne_ok s (by decide))
  · have hrefused : s.fault = true ∨ s.built = true := by simpa [imp_iff_not_or] using hp
    cases (execNew_refused hrefused).symm.trans ht
    exact absurd hok (raise_err_ne_ok s (by decide))

/-- Only an accepted RESET answers OK (44_host_operations.md R173). -/
theorem eq_resetCursors_of_reset_ok {s t : State} (ht : exec .reset s = .next t) (hok : t.rsp.err = .ok) :
    t = s.resetCursors.respond .ok := by
  change execReset s = .next t at ht
  by_cases hp : s.Ready
  · cases (execReset_accepted hp).symm.trans ht
    rfl
  · cases (execReset_refused hp).symm.trans ht
    exact absurd hok (raise_err_ne_ok s (by decide))

/-- Only an ENCODE that ran the frame machine reports `complete` (44_host_operations.md R172). -/
theorem eq_frameRun_of_encode_complete {sc : ScanCode} {cap : Nat} {s t : State}
    (ht : exec (.encode sc cap) s = .next t) (hcomplete : t.rsp.status.complete = true) :
    s.resumable = true ∧ t = frameRun sc cap s := by
  change execEncode sc cap s = .next t at ht
  by_cases hp : s.Ready ∧ s.resumable = true
  · cases (execEncode_accepted hp.1 hp.2).symm.trans ht
    exact ⟨hp.2, rfl⟩
  · cases (execEncode_refused hp).symm.trans ht
    simp [Status.none] at hcomplete

theorem construct_atStart (s : State) (cfg : TimingTable) : (s.construct cfg).AtStart := ⟨rfl, rfl, rfl⟩

theorem resetCursors_respond_atStart (s : State) (e : Err) : (s.resetCursors.respond e).AtStart := ⟨rfl, rfl, rfl⟩

theorem resetCursors_respond_sameBuild (s : State) (e : Err) : SameBuild s (s.resetCursors.respond e) :=
  ⟨rfl, rfl, rfl, rfl, rfl, rfl, rfl, rfl⟩

theorem beginCall_sameBuild (s : State) (sc : ScanCode) (cap : Nat) : SameBuild s (s.beginCall sc cap) :=
  ⟨rfl, rfl, rfl, rfl, rfl, rfl, rfl, rfl⟩

theorem sameBuild_trans {s t u : State} (hst : SameBuild s t) (htu : SameBuild t u) : SameBuild s u := by
  obtain ⟨hbuilt, hfault, hx, h0, h1, htt, hinputs, hfree⟩ := hst
  obtain ⟨hbuilt', hfault', hx', h0', h1', htt', hinputs', hfree'⟩ := htu
  exact ⟨hbuilt'.trans hbuilt, hfault'.trans hfault, hx'.trans hx, h0'.trans h0, h1'.trans h1, htt'.trans htt,
    hinputs'.trans hinputs, hfree'.trans hfree⟩

theorem sameBuild_of_frameStepped {s t : State} (h : FrameStepped s t) : SameBuild s t :=
  ⟨h.built, h.fault, h.x, h.bit0, h.bit1, h.tt, h.inputs, h.freeCount⟩

/-- Only arm (C) of R141 reports `complete`, and it ends at the entry point (43_frame_steps.md R141, R156). -/
theorem atStart_of_frameStepped_complete {s t : State} (h : FrameStepped s t)
    (hcomplete : t.rsp.status.complete = true) : t.AtStart := by
  by_cases hend : stepEnd s.cur ≤ s.pos + s.rem
  · by_cases h11 : s.cur = 11
    · obtain ⟨hcur, hbcur, hlcur, -, -⟩ := h.last h11 hend
      exact ⟨hcur, hbcur, hlcur⟩
    · obtain ⟨-, -, -, hstatus, -⟩ := h.inner h11 hend
      simp [hstatus, Status.none] at hcomplete
  · obtain ⟨-, -, hstatus, -⟩ := h.paused (Nat.lt_of_not_le hend)
    simp [hstatus, Status.full] at hcomplete

/-- During a call that began at `s`: no cursor is reserved, `complete` stands only at the entry point, and the build is
as it was at `s`. -/
def CompletesAtStart (s t : State) : Prop :=
  t.resumable = true ∧ (t.rsp.status.complete = true → t.AtStart) ∧ SameBuild s t

theorem frameStep_keeps_completesAtStart (s t : State) (h : CompletesAtStart s t) :
    CompletesAtStart s (frameStep t) := by
  obtain ⟨hresumable, -, hsame⟩ := h
  have hdone := frameStep_spec t hresumable
  exact ⟨hdone.resumable, atStart_of_frameStepped_complete hdone,
    sameBuild_trans hsame (sameBuild_of_frameStepped hdone)⟩

theorem frameRun_completesAtStart {s : State} (hresumable : s.resumable = true) (sc : ScanCode) (cap : Nat) :
    CompletesAtStart s (frameRun sc cap s) :=
  frameLoop_keeps (frameStep_keeps_completesAtStart s) 12
    ⟨hresumable, nofun, beginCall_sameBuild s sc cap⟩

/-- An ENCODE that reports `complete` ends at the entry point with the build as it was (70_reset_and_hazards.md R212). -/
theorem encode_complete_atStart_sameBuild {sc : ScanCode} {cap : Nat} {s t : State}
    (ht : exec (.encode sc cap) s = .next t) (hcomplete : t.rsp.status.complete = true) :
    t.AtStart ∧ SameBuild s t := by
  obtain ⟨hresumable, rfl⟩ := eq_frameRun_of_encode_complete ht hcomplete
  obtain ⟨-, hstart, hsame⟩ := frameRun_completesAtStart hresumable sc cap
  exact ⟨hstart hcomplete, hsame⟩

/-- No cursor is reserved and the first word of the call is `w`. -/
def FirstWord (w : Word) (s : State) : Prop :=
  s.resumable = true ∧ s.rsp.dst.head? = some w

/-- A frame step only appends, so the first word of the call stays (20_memory.md R55). -/
theorem frameStep_keeps_firstWord (w : Word) (s : State) (h : FirstWord w s) : FirstWord w (frameStep s) := by
  obtain ⟨hresumable, hhead⟩ := h
  have hdone := frameStep_spec s hresumable
  obtain ⟨ws, -, hdst⟩ := hdone.count
  exact ⟨hdone.resumable, by simp [hdst, hhead]⟩

theorem frameStep_eq_leading1 {s : State} (hc : s.cur = 0) : frameStep s = litStep 0 0 1 s := by
  simp [frameStep, decodeStep, hc, stepLeading1]

/-- The step at the entry point with capacity left and nothing written yet writes LEAD (43_frame_steps.md R144). -/
theorem frameStep_writes_lead {s : State} (hstart : s.AtStart) (hrem : 1 ≤ s.rem) (hdst : s.rsp.dst = []) :
    FirstWord (readPrim s 0) (frameStep s) := by
  refine ⟨(frameStep_spec s (resumable_of_atStart hstart)).resumable, ?_⟩
  rw [frameStep_eq_leading1 hstart.1, litStep_dst_whole 0 0 (n := 1) hstart.2.2 (by decide) hrem, hdst]
  rfl

/-- A call with room for a word begins with the word that its first step writes: the later steps keep it. -/
theorem frameRun_firstWord_lead {s : State} (hstart : s.AtStart) (sc : ScanCode) {cap : Nat} (hcap : 1 ≤ cap) :
    FirstWord (readPrim s 0) (frameRun sc cap s) := by
  have hfirst : FirstWord (readPrim s 0) (frameStep (s.beginCall sc cap)) := frameStep_writes_lead hstart hcap rfl
  rw [frameRun, frameLoop]
  cases (frameStep (s.beginCall sc cap)).busy with
  | true => exact frameLoop_keeps (frameStep_keeps_firstWord _) 11 hfirst
  | false => exact hfirst

theorem pos_of_atStart {s : State} (h : s.AtStart) : s.pos = 0 := by
  obtain ⟨hc, hb, hl⟩ := h
  rw [pos_start hb hl, hc]
  rfl

/-- Settles O29: each way in leaves the cursors at 0, and from there the first frame step writes LEAD. -/
theorem entryPointIsTheStartOfAFrame : Obligations.EntryPointIsTheStartOfAFrame := by
  unfold Obligations.EntryPointIsTheStartOfAFrame
  refine ⟨⟨rfl, rfl, rfl⟩, fun s t rest hb hin ht => ?_, fun cfg s t ht hok => ?_, fun s t ht hok => ?_,
    fun sc cap s t ht hcomplete => (encode_complete_atStart_sameBuild ht hcomplete).1,
    fun sc cap s hstart hready hcap => ⟨pos_of_atStart hstart, ?_⟩⟩
  · cases (step_of_resetInput hb hin).symm.trans ht
    exact ⟨hwReset_cur s, hwReset_bcur s, hwReset_lcur s⟩
  · rw [eq_construct_of_new_ok ht hok]
    exact construct_atStart s cfg
  · rw [eq_resetCursors_of_reset_ok ht hok]
    exact resetCursors_respond_atStart s .ok
  · exact ⟨_, execEncode_accepted hready (resumable_of_atStart hstart), (frameRun_firstWord_lead hstart sc hcap).2⟩

/-- Settles O30: NEW is the construction, RESET writes the cursors alone, and so do the frame steps up to completion. -/
theorem softwareResetsCompared : Obligations.SoftwareResetsCompared := by
  unfold Obligations.SoftwareResetsCompared
  refine ⟨fun cfg s t ht hok => ?_, fun s t ht hok => ?_, fun sc cap s t => encode_complete_atStart_sameBuild⟩
  · rw [eq_construct_of_new_ok ht hok]
    exact ⟨construct_atStart s cfg, rfl, rfl, rfl, rfl⟩
  · rw [eq_resetCursors_of_reset_ok ht hok]
    exact ⟨resetCursors_respond_atStart s .ok, resetCursors_respond_sameBuild s .ok⟩

end Sys2Proof.Proofs
end

section
/-! The encodings (30_encoding.md sections 1 to 4): the two decoders against the encoder, and the symbol word. -/

open Sys2Proof Sys2Proof.Machine Sys2Proof.Rows

namespace Sys2Proof.Proofs

/-- Settles O1: by the constructors; the capacity of an ENCODE is the one operand that its field could lose. -/
theorem decodeOfEncodeGivesTheInstruction : Obligations.DecodeOfEncodeGivesTheInstruction := by
  unfold Obligations.DecodeOfEncodeGivesTheInstruction
  intro i hwf
  cases i with
  | encode sc cap =>
    have hcap : cap < 2 ^ 16 := of_decide_eq_true hwf
    have hfield : (BitVec.ofNat 16 cap).toNat = cap := Nat.mod_eq_of_lt hcap
    exact congrArg (fun n => Except.ok (Instr.encode sc n)) hfield
  | _ => rfl

/-- All four `op` codes are assigned (30_encoding.md R74). -/
theorem op_cases (op : BitVec 2) : op = 0 ∨ op = 1 ∨ op = 2 ∨ op = 3 := by
  revert op; decide

/-- A command decodes by its `op`, from the operand fields of its operation alone (30_encoding.md R74). -/
theorem decodeCmd_cases (c : Cmd) :
    (c.op = 0 ∧ decodeCmd c = .new c.cfg) ∨ (c.op = 1 ∧ decodeCmd c = .encode c.sc c.cap.toNat) ∨
      (c.op = 2 ∧ decodeCmd c = .reset) ∨ (c.op = 3 ∧ decodeCmd c = .destroy) := by
  rcases op_cases c.op with h | h | h | h <;> simp [h, decodeCmd]

theorem decodeCmd_wellFormed (c : Cmd) : (decodeCmd c).wellFormed = true := by
  have hcap : c.cap.toNat < 2 ^ 16 := c.cap.isLt
  rcases decodeCmd_cases c with ⟨-, h⟩ | ⟨-, h⟩ | ⟨-, h⟩ | ⟨-, h⟩ <;> simp [h, Instr.wellFormed, hcap]

theorem encode_decodeCmd_selector (c : Cmd) : (encode (decodeCmd c)).selector = c.op.toNat := by
  rcases decodeCmd_cases c with ⟨hop, h⟩ | ⟨hop, h⟩ | ⟨hop, h⟩ | ⟨hop, h⟩ <;> rw [h, hop] <;> rfl

/-- A frame step has no operands, and its encoding is the selector itself (30_encoding.md R78). -/
theorem encode_of_decode_step {c : BitVec 4} {i : Instr} (h : decode (.step c) = .ok i) :
    i.wellFormed = true ∧ encode i = .step c := by
  rcases cur_cases c (selector_le_of_decode h) with
    rfl | rfl | rfl | rfl | rfl | rfl | rfl | rfl | rfl | rfl | rfl | rfl <;>
    (cases h; exact ⟨rfl, rfl⟩)

/-- Settles O2: the selector by the format of what was fetched, the round trip by O1. -/
theorem decodedInstructionsEncodeToTheirSelector : Obligations.DecodedInstructionsEncodeToTheirSelector := by
  unfold Obligations.DecodedInstructionsEncodeToTheirSelector
  intro f i h
  have hi : i.wellFormed = true ∧ (encode i).selector = f.selector := by
    cases f with
    | cmd c =>
      cases h
      exact ⟨decodeCmd_wellFormed c, encode_decodeCmd_selector c⟩
    | step c =>
      obtain ⟨hwf, hc⟩ := encode_of_decode_step h
      exact ⟨hwf, congrArg Fetched.selector hc⟩
  exact ⟨hi.1, hi.2, decodeOfEncodeGivesTheInstruction i hi.1⟩

/-- Settles O3: each `op` reads the fields of its own operation alone. -/
theorem unusedOperandFieldsAreIgnored : Obligations.UnusedOperandFieldsAreIgnored := by
  unfold Obligations.UnusedOperandFieldsAreIgnored
  rintro ⟨op, cfg, sc, cap⟩ ⟨op', cfg', sc', cap'⟩ hop hnew hencode
  cases hop
  rcases op_cases op with rfl | rfl | rfl | rfl
  · cases hnew rfl
    rfl
  · obtain ⟨hsc, hcap⟩ := hencode rfl
    cases hsc
    cases hcap
    rfl
  · rfl
  · rfl

/-- Settles O4: a command always decodes; the sixteen step selectors are compared one by one. -/
theorem onlyReservedStepSelectorsAreRejected : Obligations.OnlyReservedStepSelectorsAreRejected := by
  unfold Obligations.OnlyReservedStepSelectorsAreRejected
  have hassigned : ∀ c : BitVec 4, c.toNat < 12 → (decodeStep c).isSome = true ∧ (stepTable c).isSome = true := by
    decide
  refine ⟨fun c => ⟨decodeCmd c, rfl⟩, by decide, fun c hc => ?_⟩
  obtain ⟨hdecode, hrow⟩ := hassigned c hc
  obtain ⟨i, hi⟩ := Option.isSome_iff_exists.1 hdecode
  exact ⟨⟨i, by simp [decode, hi]⟩, hrow⟩

/-- Settles O5: each word is decoded. -/
theorem opcodeTableWordsDecode : Obligations.OpcodeTableWordsDecode := by
  unfold Obligations.OpcodeTableWordsDecode
  exact ⟨fun _ _ _ => rfl, fun _ _ => rfl, fun _ _ _ => rfl, fun _ _ _ => rfl, rfl, rfl, rfl, rfl, rfl⟩

/-- The value of a concatenation is a sum (30_encoding.md R70). -/
theorem append_toNat {m n : Nat} (a : BitVec m) (b : BitVec n) : (a ++ b).toNat = 2 ^ n * a.toNat + b.toNat := by
  rw [BitVec.toNat_append, ← Nat.shiftLeft_add_eq_or_of_lt b.isLt, Nat.shiftLeft_eq, Nat.mul_comm]

/-- The symbol word as a number (30_encoding.md R70). -/
theorem pack_toNat (l0 l1 : Level) (d0 d1 : Duration) :
    (pack l0 d0 l1 d1).toNat = d0.toNat + 2 ^ 15 * l0.toNat + 2 ^ 16 * d1.toNat + 2 ^ 31 * l1.toNat := by
  simp only [pack, append_toNat]
  omega

/-- The fields of a symbol word as numbers (30_encoding.md R70). -/
theorem unpack_toNat (w : Word) :
    (unpack w).l0.toNat = w.toNat / 2 ^ 15 % 2 ∧ (unpack w).d0.toNat = w.toNat % 2 ^ 15 ∧
      (unpack w).l1.toNat = w.toNat / 2 ^ 31 % 2 ∧ (unpack w).d1.toNat = w.toNat / 2 ^ 16 % 2 ^ 15 := by
  simp [unpack, BitVec.extractLsb'_toNat, Nat.shiftRight_eq_div_pow]

/-- `unpack` reads back the fields that `pack` placed. -/
@[simp] theorem unpack_pack (l0 l1 : Level) (d0 d1 : Duration) : unpack (pack l0 d0 l1 d1) = ⟨l0, d0, l1, d1⟩ := by
  obtain ⟨hl0, hd0, hl1, hd1⟩ := unpack_toNat (pack l0 d0 l1 d1)
  rw [pack_toNat] at hl0 hd0 hl1 hd1
  have := l0.isLt; have := d0.isLt; have := l1.isLt; have := d1.isLt
  have el0 : (unpack (pack l0 d0 l1 d1)).l0 = l0 := BitVec.eq_of_toNat_eq (by omega)
  have ed0 : (unpack (pack l0 d0 l1 d1)).d0 = d0 := BitVec.eq_of_toNat_eq (by omega)
  have el1 : (unpack (pack l0 d0 l1 d1)).l1 = l1 := BitVec.eq_of_toNat_eq (by omega)
  have ed1 : (unpack (pack l0 d0 l1 d1)).d1 = d1 := BitVec.eq_of_toNat_eq (by omega)
  calc unpack (pack l0 d0 l1 d1)
      = ⟨(unpack (pack l0 d0 l1 d1)).l0, (unpack (pack l0 d0 l1 d1)).d0, (unpack (pack l0 d0 l1 d1)).l1,
          (unpack (pack l0 d0 l1 d1)).d1⟩ := rfl
    _ = ⟨l0, d0, l1, d1⟩ := by rw [el0, ed0, el1, ed1]

theorem pack_unpack (w : Word) : pack (unpack w).l0 (unpack w).d0 (unpack w).l1 (unpack w).d1 = w := by
  obtain ⟨hl0, hd0, hl1, hd1⟩ := unpack_toNat w
  have := w.isLt
  refine BitVec.eq_of_toNat_eq ?_
  rw [pack_toNat]
  omega

/-- Settles O6: the layout as a sum, and the fields by division. -/
theorem packPlacesTheFourFields : Obligations.PackPlacesTheFourFields := by
  unfold Obligations.PackPlacesTheFourFields
  exact ⟨fun l0 l1 d0 d1 => ⟨pack_toNat l0 l1 d0 d1, unpack_pack l0 l1 d0 d1⟩, pack_unpack⟩

end Sys2Proof.Proofs
end

section
/-! What an instruction can do, said once: each host operation by whether it is accepted, and every frame step by its
sub-encoder and the arms of 43_frame_steps.md R141. -/

open Sys2Proof Sys2Proof.Machine Sys2Proof.Rows

namespace Sys2Proof.Proofs

/-- What NEW does: construct, raise ConfigError, or raise ContractViolation (44_host_operations.md R171). -/
theorem exec_new_cases {cfg : TimingTable} {s t : State} (ht : exec (.new cfg) s = .next t) :
    (s.fault = false ∧ s.built = false ∧ validTable cfg = true ∧ t = s.construct cfg) ∨
      (s.fault = false ∧ s.built = false ∧ validTable cfg = false ∧ t = s.raise .configError) ∨
      ((s.fault = true ∨ s.built = true) ∧ t = s.raise .contractViolation) := by
  change execNew cfg s = .next t at ht
  by_cases hp : s.fault = false ∧ s.built = false
  · obtain ⟨hf, hb⟩ := hp
    cases hv : validTable cfg with
    | true =>
      cases (execNew_accepted hf hb hv).symm.trans ht
      exact .inl ⟨hf, hb, rfl, rfl⟩
    | false =>
      cases (execNew_invalid hf hb hv).symm.trans ht
      exact .inr (.inl ⟨hf, hb, rfl, rfl⟩)
  · have hrefused : s.fault = true ∨ s.built = true := by simpa [imp_iff_not_or] using hp
    cases (execNew_refused hrefused).symm.trans ht
    exact .inr (.inr ⟨hrefused, rfl⟩)

/-- What RESET does (44_host_operations.md R170, R173). -/
theorem exec_reset_cases {s t : State} (ht : exec .reset s = .next t) :
    (s.Ready ∧ t = s.resetCursors.respond .ok) ∨ (¬s.Ready ∧ t = s.raise .contractViolation) := by
  change execReset s = .next t at ht
  by_cases hp : s.Ready
  · cases (execReset_accepted hp).symm.trans ht
    exact .inl ⟨hp, rfl⟩
  · cases (execReset_refused hp).symm.trans ht
    exact .inr ⟨hp, rfl⟩

/-- The state after an accepted DESTROY (44_host_operations.md R174). -/
def destroyed (s : State) : State :=
  { s.resetCursors.unspecify.respond .ok with built := false }

/-- What DESTROY does (44_host_operations.md R170, R174). -/
theorem exec_destroy_cases {s t : State} (ht : exec .destroy s = .next t) :
    (s.Ready ∧ t = destroyed s) ∨ (¬s.Ready ∧ t = s.raise .contractViolation) := by
  change execDestroy s = .next t at ht
  by_cases hp : s.Ready
  · cases (execDestroy_accepted hp).symm.trans ht
    exact .inl ⟨hp, rfl⟩
  · cases (execDestroy_refused hp).symm.trans ht
    exact .inr ⟨hp, rfl⟩

/-- What ENCODE does (44_host_operations.md R170, R172, 30_encoding.md R80). -/
theorem exec_encode_cases {sc : ScanCode} {cap : Nat} {s t : State} (ht : exec (.encode sc cap) s = .next t) :
    (s.Ready ∧ s.resumable = true ∧ t = frameRun sc cap s) ∨
      (¬(s.Ready ∧ s.resumable = true) ∧ t = s.raise .contractViolation) := by
  change execEncode sc cap s = .next t at ht
  by_cases hp : s.Ready ∧ s.resumable = true
  · cases (execEncode_accepted hp.1 hp.2).symm.trans ht
    exact .inl ⟨hp.1, hp.2, rfl⟩
  · cases (execEncode_refused hp).symm.trans ht
    exact .inr ⟨hp, rfl⟩

/-- The reserved counts included, a sub-encoder emits words within the capacity and moves its cursor, and changes
nothing else (41_bit_encoder.md R121, 42_literal_encoder.md R131). -/
theorem stepRun_spec (d : StepDesc) (s : State) :
    ∃ ws b l, ws.length ≤ s.rem ∧ (stepRun d s).2 = { s.emitAll ws with bcur := b, lcur := l } := by
  cases hk : d.kind with
  | bits =>
    refine ⟨_, _, s.lcur, ?_, by rw [stepRun, hk]; simp only [bitsEncode_spec]; rfl⟩
    simp
  | lit =>
    refine ⟨_, s.bcur, _, ?_, by rw [stepRun, hk]; simp only [litEncode_spec_of_any_count]; rfl⟩
    simp

theorem stepRun_sameBuild (d : StepDesc) (s : State) : SameBuild s (stepRun d s).2 := by
  obtain ⟨ws, b, l, -, h⟩ := stepRun_spec d s
  rw [h]
  exact ⟨rfl, rfl, rfl, rfl, rfl, rfl, rfl, rfl⟩

theorem afterStep_sameBuild (s : State) (c : BitVec 4) (st : SubStatus) : SameBuild s (s.afterStep c st) :=
  ⟨afterStep_built s c st, afterStep_fault s c st, afterStep_x s c st, afterStep_bit0 s c st, afterStep_bit1 s c st,
    afterStep_tt s c st, afterStep_inputs s c st, afterStep_freeCount s c st⟩

/-- The sub-encoder of a step of the table, then the arms of R141 (43_frame_steps.md R140, R141). -/
def FrameStepOf (c : BitVec 4) (d : StepDesc) (s t : State) : Prop :=
  t = (stepRun d s).2.afterStep c (stepRun d s).1

theorem sameBuild_of_frameStepOf {c : BitVec 4} {d : StepDesc} {s t : State} (h : FrameStepOf c d s t) :
    SameBuild s t := by
  rw [h]
  exact sameBuild_trans (stepRun_sameBuild d s) (afterStep_sameBuild _ c _)

/-- An instruction is a host operation or the frame step of a selector (30_encoding.md R74, R78). -/
theorem isHostOp_or_decode_step (i : Instr) : IsHostOp i ∨ ∃ c, decode (.step c) = .ok i := by
  cases i with
  | new cfg => exact .inl (.inl ⟨cfg, rfl⟩)
  | encode sc cap => exact .inl (.inr (.inl ⟨sc, cap, rfl⟩))
  | reset => exact .inl (.inr (.inr (.inl rfl)))
  | destroy => exact .inl (.inr (.inr (.inr rfl)))
  | leading1 => exact .inr ⟨0, rfl⟩
  | data1Bits => exact .inr ⟨1, rfl⟩
  | data1Suffix => exact .inr ⟨2, rfl⟩
  | shortGap1 => exact .inr ⟨3, rfl⟩
  | data2Bits => exact .inr ⟨4, rfl⟩
  | longGap => exact .inr ⟨5, rfl⟩
  | leading2 => exact .inr ⟨6, rfl⟩
  | data3Bits => exact .inr ⟨7, rfl⟩
  | data3Suffix => exact .inr ⟨8, rfl⟩
  | shortGap2 => exact .inr ⟨9, rfl⟩
  | data4Bits => exact .inr ⟨10, rfl⟩
  | terminator => exact .inr ⟨11, rfl⟩

/-- What the frame step of a selector does (43_frame_steps.md R140, R141). -/
theorem exec_step_cases {c : BitVec 4} {i : Instr} {s t : State} (h : decode (.step c) = .ok i)
    (ht : exec i s = .next t) : ∃ d, stepTable c = some d ∧ FrameStepOf c d s t := by
  obtain ⟨d, hd, hrun⟩ := exec_of_decode_step h
  cases (hrun s).symm.trans ht
  exact ⟨d, hd, rfl⟩

/-- What any instruction does. -/
theorem exec_cases {i : Instr} {s t : State} (ht : exec i s = .next t) :
    (∃ cfg, i = .new cfg) ∨ (∃ sc cap, i = .encode sc cap) ∨ i = .reset ∨ i = .destroy ∨
      ∃ c d, FrameStepOf c d s t := by
  rcases isHostOp_or_decode_step i with (h | h | h | h) | ⟨c, hc⟩
  · exact .inl h
  · exact .inr (.inl h)
  · exact .inr (.inr (.inl h))
  · exact .inr (.inr (.inr (.inl h)))
  · obtain ⟨d, -, h⟩ := exec_step_cases hc ht
    exact .inr (.inr (.inr (.inr ⟨c, d, h⟩)))

theorem decode_step_iff {c : BitVec 4} {i : Instr} : decode (.step c) = .ok i ↔ decodeStep c = some i := by
  cases h : decodeStep c <;> simp [decode, h]

/-- The frame step in flight in every state, a reserved selector included (43_frame_steps.md R140,
30_encoding.md R80). -/
theorem frameStep_cases (s : State) :
    (∃ c d, FrameStepOf c d s (frameStep s)) ∨ frameStep s = s.raise .contractViolation := by
  cases h : decodeStep s.cur with
  | some i =>
    obtain ⟨d, -, hd⟩ := exec_step_cases (decode_step_iff.2 h) (exec_of_decodeStep h)
    exact .inl ⟨s.cur, d, hd⟩
  | none => exact .inr (by simp [frameStep, h])

theorem frameRun_sameBuild {s : State} (hr : s.resumable = true) (sc : ScanCode) (cap : Nat) :
    SameBuild s (frameRun sc cap s) := by
  obtain ⟨-, -, hsame⟩ := frameRun_completesAtStart hr sc cap
  exact hsame

end Sys2Proof.Proofs
end

section
/-! Construction (40_timing_and_primitives.md section 1, 44_host_operations.md sections "NEW" and "DESTROY"): when a
table is valid, what its registers hold, what NEW answers, and the waveform of the primitives. -/

open Sys2Proof Sys2Proof.Machine Sys2Proof.Rows

namespace Sys2Proof.Proofs

theorem durationOk_iff (d : Nat) : durationOk d = true ↔ 1 ≤ d ∧ d ≤ 32767 := by
  rw [durationOk, decide_eq_true_iff]
  exact Iff.rfl

theorem durationOk_eq_false_iff (d : Nat) : durationOk d = false ↔ d = 0 ∨ 32767 < d := by
  rw [← Bool.not_eq_true, durationOk_iff]
  omega

/-- `valid(tt)` as its two conditions (40_timing_and_primitives.md R103). -/
theorem validTable_iff (c : TimingTable) :
    validTable c = true ↔
      (∀ d ∈ timedDurations c, durationOk d = true) ∧ c.tLgaL + c.tLgbL0 + c.tLgbL1 = c.tLgapTotal := by
  simp [validTable]

/-- Settles O9: the negation of the two conditions of R103. -/
theorem tableIsInvalidExactlyWhenADurationOrTheSumIsWrong :
    Obligations.TableIsInvalidExactlyWhenADurationOrTheSumIsWrong := by
  unfold Obligations.TableIsInvalidExactlyWhenADurationOrTheSumIsWrong
  intro c
  calc validTable c = false
      ↔ ¬((∀ d ∈ timedDurations c, durationOk d = true) ∧ c.tLgaL + c.tLgbL0 + c.tLgbL1 = c.tLgapTotal) := by
        rw [← validTable_iff, Bool.not_eq_true]
    _ ↔ (∃ d ∈ timedDurations c, durationOk d = false) ∨ c.tLgaL + c.tLgbL0 + c.tLgbL1 ≠ c.tLgapTotal := by
        simp only [Classical.not_and_iff_not_or_not, not_forall, Bool.not_eq_true, exists_prop, ne_eq]
    _ ↔ _ := by
        simp only [durationOk_eq_false_iff, timedDurations]

/-- A timed duration of a valid table is held by its register as given (43_frame_steps.md R163). -/
theorem duration_held {c : TimingTable} (hv : validTable c = true) {d : Nat} (hd : d ∈ timedDurations c) :
    (BitVec.ofNat 15 d).toNat = d ∧ 1 ≤ d ∧ d ≤ 32767 := by
  have hok := (durationOk_iff d).1 (((validTable_iff c).1 hv).1 d hd)
  exact ⟨Nat.mod_eq_of_lt (by omega), hok⟩

theorem register_ne_zero {c : TimingTable} (hv : validTable c = true) {d : Nat} (hd : d ∈ timedDurations c) :
    BitVec.ofNat 15 d ≠ 0 := by
  obtain ⟨hheld, hpos, -⟩ := duration_held hv hd
  intro hzero
  simp [hzero] at hheld
  omega

theorem lowParts_mem (c : TimingTable) :
    c.tLgaL ∈ timedDurations c ∧ c.tLgbL0 ∈ timedDurations c ∧ c.tLgbL1 ∈ timedDurations c := by
  simp [timedDurations]

/-- Three durations of 15 bits sum to a total of 17 (40_timing_and_primitives.md R103, 10_state.md R27). -/
theorem total_held {c : TimingTable} (hv : validTable c = true) :
    (BitVec.ofNat 17 c.tLgapTotal).toNat = c.tLgapTotal := by
  have hsum := ((validTable_iff c).1 hv).2
  obtain ⟨hA, hB0, hB1⟩ := lowParts_mem c
  have := duration_held hv hA
  have := duration_held hv hB0
  have := duration_held hv hB1
  exact Nat.mod_eq_of_lt (by omega)

/-- The registers of a valid table meet the conditions that the table meets (40_timing_and_primitives.md R103). -/
theorem narrowTable_valid {c : TimingTable} (hv : validTable c = true) : (narrowTable c).valid = true := by
  have hnonzero : ((timedDurations c).map (BitVec.ofNat 15)).all (fun d => d != 0) = true := by
    simpa using fun d hd => register_ne_zero hv hd
  have hsum : (narrowTable c).tLgaL.toNat + (narrowTable c).tLgbL0.toNat + (narrowTable c).tLgbL1.toNat =
      (narrowTable c).tLgapTotal.toNat := by
    obtain ⟨hA, hB0, hB1⟩ := lowParts_mem c
    simp only [narrowTable]
    rw [(duration_held hv hA).1, (duration_held hv hB0).1, (duration_held hv hB1).1, total_held hv]
    exact ((validTable_iff c).1 hv).2
  exact Bool.and_eq_true_iff.2 ⟨hnonzero, decide_eq_true hsum⟩

/-- Settles O8: each timed duration fits 15 bits, and the sum of three of them 17. -/
theorem validTableIsHeldWithoutTruncation : Obligations.ValidTableIsHeldWithoutTruncation := by
  unfold Obligations.ValidTableIsHeldWithoutTruncation
  intro c hv
  refine ⟨narrowTable_valid hv, ?_, ?_, ?_, ?_, ?_, ?_, ?_, ?_, ?_, ?_, ?_, ?_, ?_, total_held hv⟩ <;>
    exact (duration_held hv (by simp [timedDurations])).1

/-- Settles O10: an accepted NEW constructs, and the construction written out field by field. -/
theorem newBuildsThePrimitivesOfItsTable : Obligations.NewBuildsThePrimitivesOfItsTable := by
  unfold Obligations.NewBuildsThePrimitivesOfItsTable
  intro cfg s hf hb hv
  exact execNew_accepted hf hb hv

/-- Settles O11: an accepted NEW with an invalid table raises ConfigError, which writes the response alone. -/
theorem newWithAnInvalidTableRaisesConfigError : Obligations.NewWithAnInvalidTableRaisesConfigError := by
  unfold Obligations.NewWithAnInvalidTableRaisesConfigError
  intro cfg s hf hb hv
  exact execNew_invalid hf hb hv

/-- Settles O12: ConfigError is answered by an unbuilt, unfaulted encoder, and leaves it so. -/
theorem configErrorIsNotSticky : Obligations.ConfigErrorIsNotSticky := by
  unfold Obligations.ConfigErrorIsNotSticky
  intro bad good s t ht herr hgood
  rcases exec_new_cases ht with ⟨-, -, -, rfl⟩ | ⟨hf, hb, -, rfl⟩ | ⟨-, rfl⟩
  · simp at herr
  · have hf' : (s.raise .configError).fault = false := by simp [hf]
    have hb' : (s.raise .configError).built = false := by simp [hb]
    exact ⟨_, execNew_accepted hf' hb' hgood, rfl, rfl, hf', construct_atStart _ good, rfl⟩
  · simp at herr

theorem eq_destroyed_of_ready {s t : State} (hs : s.Ready) (ht : exec .destroy s = .next t) : t = destroyed s := by
  rcases exec_destroy_cases ht with ⟨-, h⟩ | ⟨hn, -⟩
  · exact h
  · exact absurd hs hn

/-- Settles O13: NEW writes every field that the statement compares, from its table alone. -/
theorem newAfterDestroyIsNewAfterHardwareReset : Obligations.NewAfterDestroyIsNewAfterHardwareReset := by
  unfold Obligations.NewAfterDestroyIsNewAfterHardwareReset
  intro cfg s t hs ht hv
  obtain rfl := eq_destroyed_of_ready hs ht
  have hfault : (destroyed s).fault = false := hs.2
  exact ⟨_, _, execNew_accepted hfault rfl hv, execNew_accepted (s := State.reset) rfl rfl hv,
    rfl, hfault, rfl, rfl, rfl, rfl, rfl, rfl, rfl, rfl⟩

/-- The durations of a valid table's registers are none of them END_OF_SEQUENCE (40_timing_and_primitives.md R103). -/
theorem timingRegs_valid_iff (t : TimingRegs) :
    t.valid = true ↔
      (∀ d ∈ [t.tLeadH, t.tLeadL, t.tBit0H, t.tBit0L, t.tBit1H, t.tBit1L, t.tSgapH, t.tSgapL, t.tLgaH, t.tLgaL,
        t.tLgbL0, t.tLgbL1, t.tTermH], d ≠ Config.endOfSequence) ∧
      t.tLgaL.toNat + t.tLgbL0.toNat + t.tLgbL1.toNat = t.tLgapTotal.toNat := by
  simp [TimingRegs.valid]

/-- A high segment and three low ones, none of them empty, merge into one of each (30_encoding.md R73). -/
theorem wave_of_high_and_three_low {a b c d : Duration} (ha : a ≠ 0#15) (hb : b ≠ 0#15) (hc : c ≠ 0#15)
    (hd : d ≠ 0#15) :
    wave [pack 1 a 0 b, pack 0 c 0 d] = [(1, a.toNat), (0, b.toNat + (c.toNat + d.toNat))] := by
  simp [wave, segs, symbolSegments, cutAtEnd, mergeSegs, ha, hb, hc, hd]

/-- A high segment before END_OF_SEQUENCE is the whole waveform (30_encoding.md R73). -/
theorem wave_of_high_and_end {a : Duration} (ha : a ≠ 0#15) : wave [pack 1 a 0 0] = [(1, a.toNat)] := by
  simp [wave, segs, symbolSegments, cutAtEnd, mergeSegs, ha]

theorem holdLevel_of_high_and_end {a : Duration} (ha : a ≠ 0#15) : holdLevel [pack 1 a 0 0] = some 0 := by
  simp [holdLevel, segs, symbolSegments, ha]

/-- Settles O15: the primitives that the invariant gives, their waveforms, and the sum that a valid table has. -/
theorem longGapIsOneHighAndOneFullLowSegment : Obligations.LongGapIsOneHighAndOneFullLowSegment := by
  unfold Obligations.LongGapIsOneHighAndOneFullLowSegment
  intro s ⟨_, _, hprims, _, _⟩ hbuilt
  obtain ⟨hvalid, hx, -, -⟩ := hprims hbuilt
  obtain ⟨hnonzero, hsum⟩ := (timingRegs_valid_iff s.tt).1 hvalid
  have h3 : readPrim s 3 = pack 1 s.tt.tLgaH 0 s.tt.tLgaL := by simp [readPrim, hx, primitivesOf]
  have h4 : readPrim s 4 = pack 0 s.tt.tLgbL0 0 s.tt.tLgbL1 := by simp [readPrim, hx, primitivesOf]
  have h1 : readPrim s 1 = pack 1 s.tt.tTermH 0 0 := by simp [readPrim, hx, primitivesOf]
  have hterm : s.tt.tTermH ≠ 0 := hnonzero _ (by simp)
  rw [h3, h4, h1]
  refine ⟨?_, wave_of_high_and_end hterm, holdLevel_of_high_and_end hterm⟩
  rw [wave_of_high_and_three_low (hnonzero _ (by simp)) (hnonzero _ (by simp)) (hnonzero _ (by simp))
    (hnonzero _ (by simp)), ← hsum, Nat.add_assoc]

end Sys2Proof.Proofs
end

section
/-! Errors and the lifecycle (44_host_operations.md R170, R173, R174, R176; 60_exceptions.md section 1): what raises,
and what each latch and each register is written by. -/

open Sys2Proof Sys2Proof.Machine Sys2Proof.Rows

namespace Sys2Proof.Proofs

/-- RESET, DESTROY and ENCODE in a state that is not ready raise ContractViolation (44_host_operations.md R170). -/
theorem exec_needsBuilt_refused {i : Instr} (hi : NeedsBuilt i) {s : State} (h : ¬s.Ready) :
    exec i s = .next (faulted s) := by
  rcases hi with ⟨sc, cap, rfl⟩ | rfl | rfl
  · exact execEncode_refused fun hr => h hr.1
  · exact execReset_refused h
  · exact execDestroy_refused h

/-- Settles O16: the prologue of each operation fails. -/
theorem operationAgainstTheLifecycleRaisesContractViolation :
    Obligations.OperationAgainstTheLifecycleRaisesContractViolation := by
  unfold Obligations.OperationAgainstTheLifecycleRaisesContractViolation
  refine fun s => ⟨fun h cfg => execNew_refused h, fun h i hi => exec_needsBuilt_refused hi ?_⟩
  rintro ⟨hbuilt, hfault⟩
  simp [hbuilt, hfault] at h

theorem stepTable_of_bits {i : Instr} {c : BitVec 4} {k : BitVec 2} (h : (i, c, k) ∈ bits) :
    decode (.step c) = .ok i ∧ stepTable c = some ⟨.bits, k.setWidth 3, 0⟩ := by
  simp only [bits, List.mem_cons, Prod.mk.injEq, List.not_mem_nil, or_false] at h
  rcases h with ⟨rfl, rfl, rfl⟩ | ⟨rfl, rfl, rfl⟩ | ⟨rfl, rfl, rfl⟩ | ⟨rfl, rfl, rfl⟩ <;> exact ⟨rfl, rfl⟩

theorem stepTable_of_lits {i : Instr} {c : BitVec 4} {a : BitVec 3} {n : BitVec 2} (h : (i, c, a, n) ∈ lits) :
    decode (.step c) = .ok i ∧ stepTable c = some ⟨.lit, a, n⟩ ∧ a.toNat + n.toNat ≤ 8 := by
  simp only [lits, List.mem_cons, Prod.mk.injEq, List.not_mem_nil, or_false] at h
  rcases h with ⟨rfl, rfl, rfl, rfl⟩ | ⟨rfl, rfl, rfl, rfl⟩ | ⟨rfl, rfl, rfl, rfl⟩ | ⟨rfl, rfl, rfl, rfl⟩ |
    ⟨rfl, rfl, rfl, rfl⟩ | ⟨rfl, rfl, rfl, rfl⟩ | ⟨rfl, rfl, rfl, rfl⟩ | ⟨rfl, rfl, rfl, rfl⟩ <;>
    exact ⟨rfl, rfl, by decide⟩

/-- No resumption state has `lcur` = 3 (10_state.md R22, R23). -/
theorem lcur_ne_three_of_resumable {s : State} (hr : s.resumable = true) : s.lcur ≠ 3 := by
  intro h3
  unfold State.resumable at hr
  split at hr
  · exact absurd hr (by simp)
  · next d _ =>
    have hlen := d.len.isLt
    split at hr
    · simp [h3] at hr
    · simp [h3] at hr
      omega

/-- Settles O17: each of the four combinations is outside those of R23. -/
theorem reservedCursorsRaiseContractViolation : Obligations.ReservedCursorsRaiseContractViolation := by
  unfold Obligations.ReservedCursorsRaiseContractViolation
  intro s sc cap hreserved
  refine execEncode_refused fun ⟨_, hr⟩ => ?_
  rcases hreserved with hcur | h3 | ⟨i, c, k, hrow, hc, hl⟩ | ⟨i, c, a, n, hrow, hc, hbl⟩
  · have hle := cur_le_of_resumable hr
    omega
  · exact lcur_ne_three_of_resumable hr h3
  · exact hl ((resumable_bits (stepTable_of_bits hrow).2 hc).1 hr)
  · obtain ⟨hb0, hlt⟩ := (resumable_lit (stepTable_of_lits hrow).2.1 hc).1 hr
    rcases hbl with hb | hn
    · exact hb hb0
    · omega

/-- The answer of a host operation that raises `e` (60_exceptions.md R193). -/
theorem raise_writes (s : State) (e : Err) :
    (s.raise e).rsp.n = 0 ∧ (s.raise e).rsp.status = ⟨false, false⟩ ∧
      s.raise e = { s with fault := (s.raise e).fault, rsp := (s.raise e).rsp, busy := false } := by
  cases e <;> exact ⟨rfl, rfl, rfl⟩

/-- A host operation that does not answer OK raised ConfigError or ContractViolation (60_exceptions.md R190, R192). -/
theorem raised_of_err_ne_ok {i : Instr} {s t : State} (hi : IsHostOp i) (ht : exec i s = .next t)
    (herr : t.rsp.err ≠ .ok) :
    (t = s.raise .configError ∧ ∃ cfg, i = .new cfg ∧ validTable cfg = false) ∨ t = s.raise .contractViolation := by
  rcases hi with ⟨cfg, rfl⟩ | ⟨sc, cap, rfl⟩ | rfl | rfl
  · rcases exec_new_cases ht with ⟨-, -, -, rfl⟩ | ⟨-, -, hv, h⟩ | ⟨-, h⟩
    · exact absurd rfl herr
    · exact .inl ⟨h, cfg, rfl, hv⟩
    · exact .inr h
  · rcases exec_encode_cases ht with ⟨hready, hr, rfl⟩ | ⟨-, h⟩
    · obtain ⟨-, -, hok⟩ := frameRun_steady hready hr sc cap
      exact absurd hok herr
    · exact .inr h
  · rcases exec_reset_cases ht with ⟨-, rfl⟩ | ⟨-, h⟩
    · exact absurd rfl herr
    · exact .inr h
  · rcases exec_destroy_cases ht with ⟨-, rfl⟩ | ⟨-, h⟩
    · exact absurd rfl herr
    · exact .inr h

/-- Settles O18: an operation that does not answer OK is one of the two raises, each of which writes what R193 says. -/
theorem raisingWritesNothingButTheFaultLatch : Obligations.RaisingWritesNothingButTheFaultLatch := by
  unfold Obligations.RaisingWritesNothingButTheFaultLatch
  intro i s t hi ht herr
  rcases raised_of_err_ne_ok hi ht herr with ⟨rfl, hinvalid⟩ | rfl
  · obtain ⟨hn, hstatus, hrest⟩ := raise_writes s .configError
    exact ⟨hn, hstatus, .inl ⟨rfl, hinvalid, rfl⟩, hrest⟩
  · obtain ⟨hn, hstatus, hrest⟩ := raise_writes s .contractViolation
    exact ⟨hn, hstatus, .inr ⟨rfl, rfl⟩, hrest⟩

/-- No instruction clears the fault latch: a host operation is refused, a frame step leaves it (60_exceptions.md
R193). -/
theorem exec_keeps_fault {i : Instr} {s t : State} (hf : s.fault = true) (ht : exec i s = .next t) :
    t.fault = true := by
  have hnot : ¬s.Ready := fun h => nomatch hf.symm.trans h.2
  rcases exec_cases ht with ⟨cfg, rfl⟩ | ⟨sc, cap, rfl⟩ | rfl | rfl | ⟨c, d, hstep⟩
  · cases (execNew_refused (.inl hf)).symm.trans ht
    simp
  · cases (exec_needsBuilt_refused (.inl ⟨sc, cap, rfl⟩) hnot).symm.trans ht
    rfl
  · cases (exec_needsBuilt_refused (.inr (.inl rfl)) hnot).symm.trans ht
    rfl
  · cases (exec_needsBuilt_refused (.inr (.inr rfl)) hnot).symm.trans ht
    rfl
  · obtain ⟨-, hfault, -⟩ := sameBuild_of_frameStepOf hstep
    exact hfault.trans hf

/-- With a call in progress a step is the frame step in flight (43_frame_steps.md R141). -/
theorem step_of_busy {s : State} (hb : s.busy = true) : step s = .next (frameStep s) := by
  cases h : decodeStep s.cur with
  | some i => simp [step, nextFetch, hb, runFetched, decode, h, exec_of_decodeStep h]
  | none => simp [step, nextFetch, hb, runFetched, decode, h, frameStep]

/-- Between operations a step with a command presented is the command executed (00_scope.md R3). -/
theorem step_of_command {s : State} {c : Cmd} {rest : List HostEvent} (hb : s.busy = false)
    (hin : s.inputs = .cmd c :: rest) : step s = exec (decodeCmd c) { s with inputs := rest } := by
  simp [step, nextFetch, hb, hin, runFetched, decode]

/-- With nothing presented a step is idle (60_exceptions.md R205). -/
theorem step_of_idle {s : State} (hb : s.busy = false) (hin : s.inputs = []) : step s = .next s := by
  simp [step, nextFetch, hb, hin]

/-- What one step of the machine is. -/
theorem step_cases {s t : State} (ht : step s = .next t) :
    (s.busy = true ∧ t = frameStep s) ∨
      (s.busy = false ∧ ∃ c rest, s.inputs = .cmd c :: rest ∧ exec (decodeCmd c) { s with inputs := rest } = .next t) ∨
      (s.busy = false ∧ ∃ rest, s.inputs = .hwReset :: rest ∧ t = { s.hwReset with inputs := rest }) ∨
      t = s := by
  by_cases hb : s.busy = true
  · cases (step_of_busy hb).symm.trans ht
    exact .inl ⟨hb, rfl⟩
  · rw [Bool.not_eq_true] at hb
    match hin : s.inputs with
    | [] =>
      cases (step_of_idle hb hin).symm.trans ht
      exact .inr (.inr (.inr rfl))
    | .cmd c :: rest => exact .inr (.inl ⟨hb, c, rest, rfl, (step_of_command hb hin).symm.trans ht⟩)
    | .hwReset :: rest =>
      cases (step_of_resetInput hb hin).symm.trans ht
      exact .inr (.inr (.inl ⟨hb, rest, rfl, rfl⟩))

/-- Settles O20: by what a step is; neither a frame step, nor a raise, nor a command clears the latch. -/
theorem onlyHardwareResetClearsTheFault : Obligations.OnlyHardwareResetClearsTheFault := by
  unfold Obligations.OnlyHardwareResetClearsTheFault
  intro s t hf ht hclear
  rcases step_cases ht with ⟨-, rfl⟩ | ⟨-, c, rest, -, hexec⟩ | ⟨hb, rest, hin, -⟩ | rfl
  · rcases frameStep_cases s with ⟨c, d, hstep⟩ | hraise
    · obtain ⟨-, hfault, -⟩ := sameBuild_of_frameStepOf hstep
      simp [hfault, hf] at hclear
    · simp [hraise] at hclear
  · simp [exec_keeps_fault (s := { s with inputs := rest }) hf hexec] at hclear
  · exact ⟨hb, rest, hin⟩
  · simp [hf] at hclear

/-- What ENCODE, RESET and the frame steps leave: `built`, the primitives, the bit shapes, the table and the counter
(40_timing_and_primitives.md R106). -/
def BuildKept (s t : State) : Prop :=
  t.built = s.built ∧ t.x = s.x ∧ t.bit0 = s.bit0 ∧ t.bit1 = s.bit1 ∧ t.tt = s.tt ∧ t.freeCount = s.freeCount

theorem buildKept_of_sameBuild {s t : State} (h : SameBuild s t) : BuildKept s t := by
  obtain ⟨hbuilt, -, hx, h0, h1, htt, -, hfree⟩ := h
  exact ⟨hbuilt, hx, h0, h1, htt, hfree⟩

theorem buildKept_of_raise (s : State) (e : Err) : BuildKept s (s.raise e) :=
  ⟨raise_built s e, raise_x s e, raise_bit0 s e, raise_bit1 s e, raise_tt s e, raise_freeCount s e⟩

/-- Only NEW and DESTROY write what BUILD wrote (40_timing_and_primitives.md R106). -/
theorem exec_keeps_build {i : Instr} {s t : State} (hnew : ∀ cfg, i ≠ .new cfg) (hdestroy : i ≠ .destroy)
    (ht : exec i s = .next t) : BuildKept s t := by
  rcases exec_cases ht with ⟨cfg, rfl⟩ | ⟨sc, cap, rfl⟩ | rfl | rfl | ⟨c, d, hstep⟩
  · exact absurd rfl (hnew cfg)
  · rcases exec_encode_cases ht with ⟨-, hr, rfl⟩ | ⟨-, rfl⟩
    · exact buildKept_of_sameBuild (frameRun_sameBuild hr sc cap)
    · exact buildKept_of_raise s _
  · rcases exec_reset_cases ht with ⟨-, rfl⟩ | ⟨-, rfl⟩
    · exact buildKept_of_sameBuild (resetCursors_respond_sameBuild s .ok)
    · exact buildKept_of_raise s _
  · exact absurd rfl hdestroy
  · exact buildKept_of_sameBuild (sameBuild_of_frameStepOf hstep)

/-- Settles O22: all the others keep what BUILD wrote. -/
theorem onlyNewAndDestroyWriteThePrimitives : Obligations.OnlyNewAndDestroyWriteThePrimitives := by
  unfold Obligations.OnlyNewAndDestroyWriteThePrimitives
  intro i s t hnew hdestroy ht
  exact (exec_keeps_build hnew hdestroy ht).2

/-- Settles O21: an accepted NEW or DESTROY writes `built`; a raise and all other instructions keep it. -/
theorem onlyNewAndDestroyChangeBuilt : Obligations.OnlyNewAndDestroyChangeBuilt := by
  unfold Obligations.OnlyNewAndDestroyChangeBuilt
  intro i s t ht hchange
  by_cases hnew : ∃ cfg, i = .new cfg
  · obtain ⟨cfg, rfl⟩ := hnew
    rcases exec_new_cases ht with ⟨-, -, -, rfl⟩ | ⟨-, -, -, rfl⟩ | ⟨-, rfl⟩
    · exact .inl ⟨cfg, rfl, rfl⟩
    · exact absurd (raise_built s _) hchange
    · exact absurd (raise_built s _) hchange
  · by_cases hdestroy : i = .destroy
    · subst hdestroy
      rcases exec_destroy_cases ht with ⟨-, rfl⟩ | ⟨-, rfl⟩
      · exact .inr ⟨rfl, rfl⟩
      · exact absurd (raise_built s _) hchange
    · exact absurd (exec_keeps_build (not_exists.1 hnew) hdestroy ht).1 hchange

/-- Every arm of `exec` answers a next state. -/
theorem exec_next (i : Instr) (s : State) : ∃ t, exec i s = .next t := by
  cases i <;> exact ⟨_, rfl⟩

/-- Settles O23: a step is a frame step, a command executed, the reset input or idle. -/
theorem everyInstructionAndEveryStepGoesOn : Obligations.EveryInstructionAndEveryStepGoesOn := by
  unfold Obligations.EveryInstructionAndEveryStepGoesOn
  refine ⟨exec_next, fun s => ?_⟩
  cases hb : s.busy with
  | true => exact ⟨_, step_of_busy hb⟩
  | false =>
    match hin : s.inputs with
    | [] => exact ⟨s, step_of_idle hb hin⟩
    | .cmd c :: rest =>
      rw [step_of_command hb hin]
      exact exec_next _ _
    | .hwReset :: rest => exact ⟨_, step_of_resetInput hb hin⟩

/-- Settles O24: an accepted RESET resets the cursors and answers OK. -/
theorem resetReturnsTheCursorsToTheStart : Obligations.ResetReturnsTheCursorsToTheStart := by
  unfold Obligations.ResetReturnsTheCursorsToTheStart
  exact fun s hs => execReset_accepted hs

/-- Settles O26: the fields of the state after an accepted DESTROY. -/
theorem destroyLeavesAnUnbuiltEncoder : Obligations.DestroyLeavesAnUnbuiltEncoder := by
  unfold Obligations.DestroyLeavesAnUnbuiltEncoder
  exact fun s hs =>
    ⟨destroyed s, execDestroy_accepted hs, rfl, hs.2, ⟨rfl, rfl, rfl⟩, rfl, rfl, rfl, rfl, rfl⟩

/-- Settles O27: after DESTROY the encoder is unbuilt and unfaulted. -/
theorem afterDestroyOnlyNewIsAccepted : Obligations.AfterDestroyOnlyNewIsAccepted := by
  unfold Obligations.AfterDestroyOnlyNewIsAccepted
  intro s t hs ht
  obtain rfl := eq_destroyed_of_ready hs ht
  have hfault : (destroyed s).fault = false := hs.2
  have hunbuilt : ¬(destroyed s).Ready := fun h => nomatch h.1
  exact ⟨fun i hi => ⟨_, exec_needsBuilt_refused hi hunbuilt, rfl, rfl⟩,
    fun cfg hv => ⟨_, execNew_accepted hfault rfl hv, rfl, rfl, hfault⟩⟩

/-- Settles O28: the effect of the reset input, field by field. -/
theorem hardwareResetClearsLatchesAndCursors : Obligations.HardwareResetClearsLatchesAndCursors := by
  unfold Obligations.HardwareResetClearsLatchesAndCursors
  exact fun s rest hb hin =>
    ⟨_, step_of_resetInput hb hin, rfl, rfl, ⟨rfl, rfl, rfl⟩, rfl, rfl, rfl, rfl, hb⟩

end Sys2Proof.Proofs
end

section
/-! One step of the machine (43_frame_steps.md section 1, log entries 1, 2 and 14): which instruction it runs. -/

open Sys2Proof Sys2Proof.Machine Sys2Proof.Rows

namespace Sys2Proof.Proofs

theorem decodeCmd_isHostOp (c : Cmd) : IsHostOp (decodeCmd c) := by
  rcases decodeCmd_cases c with ⟨-, h⟩ | ⟨-, h⟩ | ⟨-, h⟩ | ⟨-, h⟩
  · exact .inl ⟨_, h⟩
  · exact .inr (.inl ⟨_, _, h⟩)
  · exact .inr (.inr (.inl h))
  · exact .inr (.inr (.inr h))

/-- Settles O52: a command decodes to a host operation, which the step executes. -/
theorem stepRunsThePresentedCommand : Obligations.StepRunsThePresentedCommand := by
  unfold Obligations.StepRunsThePresentedCommand
  exact fun s c rest hb hin =>
    ⟨decodeCmd c, rfl, decodeCmd_wellFormed c, decodeCmd_isHostOp c, step_of_command hb hin⟩

/-- Settles O53: the step in flight is the instruction that `cur` decodes to; a reserved `cur` raises. -/
theorem stepRunsTheFrameStepInFlight : Obligations.StepRunsTheFrameStepInFlight := by
  unfold Obligations.StepRunsTheFrameStepInFlight
  intro s hb
  refine ⟨fun i hi => ⟨(encode_of_decode_step hi).1, ?_⟩, fun hcur => ?_⟩
  · rw [step_of_busy hb, exec_of_decodeStep (decode_step_iff.1 hi)]
  · have hnone : decodeStep s.cur = none := by
      have hreserved : ∀ c : BitVec 4, 12 ≤ c.toNat → decodeStep c = none := by decide
      exact hreserved s.cur hcur
    have hraise : frameStep s = faulted s := by
      simp only [frameStep, hnone]
      rfl
    rw [step_of_busy hb, hraise]

/-- Settles O54: with nothing presented a step is idle. -/
theorem idleStepKeepsTheState : Obligations.IdleStepKeepsTheState := by
  unfold Obligations.IdleStepKeepsTheState
  exact fun s => step_of_idle

/-- A word of the opcode table that names an instruction is a fetched encoding that decodes to it. -/
theorem decodeTableWord_eq_some {nbits w : Nat} {i : Instr} (h : decodeTableWord nbits w = some i) :
    ∃ f, tableFetch nbits w = some f ∧ decode f = .ok i := by
  unfold decodeTableWord at h
  split at h
  · next f hf =>
    refine ⟨f, hf, ?_⟩
    cases hd : decode f with
    | ok j =>
      rw [hd] at h
      exact congrArg Except.ok (Option.some.inj h)
    | error e =>
      rw [hd] at h
      cases h
  · cases h

/-- Settles O55: a placed command is the next event, a placed frame step the step in flight. -/
theorem stepRunsAPlacedTableWord : Obligations.StepRunsAPlacedTableWord := by
  unfold Obligations.StepRunsAPlacedTableWord
  intro s nbits w i h
  obtain ⟨f, hf, hi⟩ := decodeTableWord_eq_some h
  simp only [State.withFetchWord, hf]
  cases f with
  | cmd c =>
    cases hi
    exact ⟨{ s with busy := false }, step_of_command (c := c) (rest := s.inputs) rfl rfl,
      .inl ⟨decodeCmd_isHostOp c, rfl⟩⟩
  | step c =>
    refine ⟨{ s with busy := true, cur := c }, ?_, .inr ⟨rfl, hi⟩⟩
    simp only [placeFetch]
    rw [step_of_busy rfl]
    exact (exec_of_decodeStep (decode_step_iff.1 hi)).symm

end Sys2Proof.Proofs
end

section
/-! The frame steps in every state (43_frame_steps.md sections 1 to 3): which sub-encoder a step invokes, what it emits,
where it leaves the cursors, and how it resumes. -/

open Sys2Proof Sys2Proof.Machine Sys2Proof.Rows

namespace Sys2Proof.Proofs

/-- The field number of a BITS row fits its two bits (30_encoding.md R79). -/
theorem bits_field_toNat {c : BitVec 4} {d : StepDesc} (hd : stepTable c = some d) (hk : d.kind = .bits) :
    (d.a.setWidth 2).toNat = d.a.toNat := by
  have hrow : ∀ c : BitVec 4, ∀ d ∈ stepTable c, d.kind = .bits → (d.a.setWidth 2).toNat = d.a.toNat := by decide
  exact hrow c d hd hk

/-- Settles O31: the sub-encoder is that of the row, by the row's format. -/
theorem everyStepInvokesItsSubEncoder : Obligations.EveryStepInvokesItsSubEncoder := by
  unfold Obligations.EveryStepInvokesItsSubEncoder
  intro c i d s hi hd
  obtain ⟨d', hd', hrun⟩ := exec_of_decode_step hi
  cases hd.symm.trans hd'
  refine ⟨fun hk => ⟨d.a.setWidth 2, bits_field_toNat hd hk, ?_⟩, fun hk => ?_⟩ <;> simp [hrun, stepRun, hk]

/-- Settles O37: a sub-encoder appends words within the capacity, and the arms of R141 write no word. -/
theorem stepsOnlyAppendToTheDestination : Obligations.StepsOnlyAppendToTheDestination := by
  unfold Obligations.StepsOnlyAppendToTheDestination
  intro c i s t hi ht
  obtain ⟨d, -, rfl⟩ := exec_step_cases hi ht
  obtain ⟨ws, b, l, hlen, hrun⟩ := stepRun_spec d s
  rw [hrun]
  refine ⟨by simp, ?_⟩
  simp [Response.n]
  omega

/-! ### The flags -/

/-- Not both flags (43_frame_steps.md R158). -/
def FlagsExclusive (f : Status) : Prop :=
  ¬(f.complete = true ∧ f.bufferFull = true)

theorem none_flagsExclusive : FlagsExclusive Status.none := nofun

theorem statusAfter_flagsExclusive (c : BitVec 4) (st : SubStatus) : FlagsExclusive (statusAfter c st) := by
  cases st with
  | full => exact nofun
  | complete =>
    simp only [statusAfter]
    split <;> exact nofun

theorem frameStepOf_flagsExclusive {c : BitVec 4} {d : StepDesc} {s t : State} (h : FrameStepOf c d s t) :
    FlagsExclusive t.rsp.status := by
  rw [h, afterStep_rsp]
  exact statusAfter_flagsExclusive c _

theorem raise_flagsExclusive (s : State) (e : Err) : FlagsExclusive (s.raise e).rsp.status := by
  rw [raise_rsp]
  exact none_flagsExclusive

theorem frameRun_flagsExclusive (sc : ScanCode) (cap : Nat) (s : State) :
    FlagsExclusive (frameRun sc cap s).rsp.status := by
  refine frameLoop_keeps (P := fun t => FlagsExclusive t.rsp.status) (fun t _ => ?_) 12 none_flagsExclusive
  rcases frameStep_cases t with ⟨c, d, hstep⟩ | hraise
  · exact frameStepOf_flagsExclusive hstep
  · rw [hraise]
    exact raise_flagsExclusive t _

/-- No instruction leaves both flags set, in any state. -/
theorem exec_flagsExclusive {i : Instr} {s t : State} (ht : exec i s = .next t) : FlagsExclusive t.rsp.status := by
  rcases exec_cases ht with ⟨cfg, rfl⟩ | ⟨sc, cap, rfl⟩ | rfl | rfl | ⟨c, d, hstep⟩
  · rcases exec_new_cases ht with ⟨-, -, -, rfl⟩ | ⟨-, -, -, rfl⟩ | ⟨-, rfl⟩
    · exact none_flagsExclusive
    · exact raise_flagsExclusive s _
    · exact raise_flagsExclusive s _
  · rcases exec_encode_cases ht with ⟨-, -, rfl⟩ | ⟨-, rfl⟩
    · exact frameRun_flagsExclusive sc cap s
    · exact raise_flagsExclusive s _
  · rcases exec_reset_cases ht with ⟨-, rfl⟩ | ⟨-, rfl⟩
    · exact none_flagsExclusive
    · exact raise_flagsExclusive s _
  · rcases exec_destroy_cases ht with ⟨-, rfl⟩ | ⟨-, rfl⟩
    · exact none_flagsExclusive
    · exact raise_flagsExclusive s _
  · exact frameStepOf_flagsExclusive hstep

theorem bits_eq_three_iff (f : Status) : f.bits = 0b11 ↔ f.complete = true ∧ f.bufferFull = true := by
  obtain ⟨complete, bufferFull⟩ := f
  cases complete <;> cases bufferFull <;> decide

/-- Settles O42: the flags are set by the arms of R141 alone, one at a time; the bits follow the flags. -/
theorem flagsAreNeverBothSet : Obligations.FlagsAreNeverBothSet := by
  unfold Obligations.FlagsAreNeverBothSet
  intro i s t ht
  have hflags := exec_flagsExclusive ht
  exact ⟨hflags, fun h3 => hflags ((bits_eq_three_iff _).1 h3)⟩

/-! ### Resuming a paused step -/

/-- `s` with `f` reported and the call ended: arm (A) of R141. -/
def reported (f : Status) (s : State) : State :=
  { s with busy := false, rsp := { s.rsp with status := f } }

theorem afterStep_full (s : State) (c : BitVec 4) : s.afterStep c .full = reported Status.full s := rfl

/-- The arms of R141 overwrite what was reported before. -/
theorem afterStep_reported (f : Status) (s : State) (c : BitVec 4) (st : SubStatus) :
    (reported f s).afterStep c st = s.afterStep c st := by
  cases st <;> rfl

/-- A sub-encoder neither reads nor writes what was reported. -/
theorem stepRun_reported (f : Status) (d : StepDesc) (s : State) :
    stepRun d (reported f s) = ((stepRun d s).1, reported f (stepRun d s).2) := by
  cases hk : d.kind with
  | bits =>
    simp only [stepRun, hk, bitsEncode_spec]
    rfl
  | lit =>
    simp only [stepRun, hk, litEncode_spec_of_any_count]
    rfl

theorem bitShapes_add (s : State) (k : BitVec 2) (b m m' : Nat) :
    bitShapes s k b (m + m') = bitShapes s k b m ++ bitShapes s k (b + m) m' := by
  simp [bitShapes, List.range_add, Function.comp_def, Nat.add_assoc]

theorem litWords_add (s : State) (a : BitVec 3) (l m m' : Nat) :
    litWords s a l (m + m') = litWords s a l m ++ litWords s a (l + m) m' := by
  simp [litWords, List.range_add, Function.comp_def, Nat.add_assoc]

/-- BITS_ENCODE stops short of the span exactly when the capacity does (41_bit_encoder.md R122). -/
theorem bitsEncode_status (k : BitVec 2) (s : State) :
    (bitsEncode k s).1 = if 32 ≤ s.bcur.toNat + s.rem then .complete else .full := by
  have hb := s.bcur.isLt
  have hiff : s.bcur.toNat + min s.rem (32 - s.bcur.toNat) = 32 ↔ 32 ≤ s.bcur.toNat + s.rem := by omega
  simp only [bitsEncode_spec, hiff]

/-- LIT_ENCODE stops short of the array exactly when the capacity does (42_literal_encoder.md R131). -/
theorem litEncode_status (a : BitVec 3) (n : BitVec 2) {s : State} (hl : s.lcur.toNat < n.toNat) :
    (litEncode a n s).1 = if n.toNat ≤ s.lcur.toNat + s.rem then .complete else .full := by
  have hiff : s.lcur.toNat + min s.rem (n.toNat - s.lcur.toNat) = n.toNat ↔ n.toNat ≤ s.lcur.toNat + s.rem := by omega
  simp only [litEncode_spec a n s hl, hiff]

/-- BITS_ENCODE with the capacity exhausted in the span. -/
theorem bitsEncode_paused (k : BitVec 2) {s : State} (h : s.bcur.toNat + s.rem < 32) :
    (bitsEncode k s).2 =
      { s.emitAll (bitShapes s k s.bcur.toNat s.rem) with bcur := BitVec.ofNat 5 (s.bcur.toNat + s.rem) } := by
  have hm : min s.rem (32 - s.bcur.toNat) = s.rem := by omega
  rw [bitsEncode_spec, hm]

/-- LIT_ENCODE with the capacity exhausted in the array. -/
theorem litEncode_paused (a : BitVec 3) (n : BitVec 2) {s : State} (h : s.lcur.toNat + s.rem < n.toNat) :
    (litEncode a n s).2 =
      { s.emitAll (litWords s a s.lcur.toNat s.rem) with lcur := BitVec.ofNat 2 (s.lcur.toNat + s.rem) } := by
  have hm : min s.rem (n.toNat - s.lcur.toNat) = s.rem := by omega
  have hne : s.lcur.toNat + s.rem ≠ n.toNat := by omega
  rw [litEncode_spec a n s (by omega), hm]
  simp only [if_neg hne]

/-- Resumability of BITS_ENCODE (41_bit_encoder.md R123). -/
theorem bitsEncode_resume (k : BitVec 2) (r : Nat) {s : State} (h : s.bcur.toNat + s.rem < 32) :
    bitsEncode k { (bitsEncode k s).2 with rem := r } = bitsEncode k { s with rem := s.rem + r } := by
  have hcursor : (BitVec.ofNat 5 (s.bcur.toNat + s.rem)).toNat = s.bcur.toNat + s.rem := Nat.mod_eq_of_lt h
  have hm : min (s.rem + r) (32 - s.bcur.toNat) = s.rem + min r (32 - (s.bcur.toNat + s.rem)) := by omega
  have hrem : s.rem + r - (s.rem + min r (32 - (s.bcur.toNat + s.rem))) = r - min r (32 - (s.bcur.toNat + s.rem)) := by
    omega
  rw [bitsEncode_paused k h, bitsEncode_spec, bitsEncode_spec]
  simp only [hcursor, hm, bitShapes_add, ← Nat.add_assoc, State.emitAll, List.append_assoc, List.length_append,
    bitShapes_length, hrem]
  rfl

/-- Resumability of LIT_ENCODE (42_literal_encoder.md R132). -/
theorem litEncode_resume (a : BitVec 3) (n : BitVec 2) (r : Nat) {s : State} (h : s.lcur.toNat + s.rem < n.toNat) :
    litEncode a n { (litEncode a n s).2 with rem := r } = litEncode a n { s with rem := s.rem + r } := by
  have hn := n.isLt
  have hcursor : (BitVec.ofNat 2 (s.lcur.toNat + s.rem)).toNat = s.lcur.toNat + s.rem :=
    Nat.mod_eq_of_lt (by omega)
  have hm : min (s.rem + r) (n.toNat - s.lcur.toNat) = s.rem + min r (n.toNat - (s.lcur.toNat + s.rem)) := by omega
  have hrem : s.rem + r - (s.rem + min r (n.toNat - (s.lcur.toNat + s.rem))) =
      r - min r (n.toNat - (s.lcur.toNat + s.rem)) := by
    omega
  rw [litEncode_paused a n h, litEncode_spec_of_any_count, litEncode_spec_of_any_count]
  simp only [hcursor, hm, litWords_add, ← Nat.add_assoc, State.emitAll, List.append_assoc, List.length_append,
    litWords_length, hrem]
  rfl

/-- The resumability laws for the sub-encoder of a row: a paused one that is invoked again ends as one unbroken
invocation (41_bit_encoder.md R123, 42_literal_encoder.md R132). -/
theorem stepRun_resume (d : StepDesc) (r : Nat) {s : State} (hlit : d.kind = .lit → s.lcur.toNat < d.len.toNat)
    (hfull : (stepRun d s).1 = .full) :
    stepRun d { (stepRun d s).2 with rem := r } = stepRun d { s with rem := s.rem + r } := by
  cases hk : d.kind with
  | bits =>
    simp only [stepRun, hk] at hfull ⊢
    refine bitsEncode_resume _ r (Nat.lt_of_not_le fun hle => ?_)
    rw [bitsEncode_status, if_pos hle] at hfull
    cases hfull
  | lit =>
    simp only [stepRun, hk] at hfull ⊢
    refine litEncode_resume _ _ r (Nat.lt_of_not_le fun hle => ?_)
    rw [litEncode_status _ _ (hlit hk), if_pos hle] at hfull
    cases hfull

/-- The resumability laws for the frame step of a selector. -/
theorem exec_step_resume {c : BitVec 4} {i : Instr} {d : StepDesc} {s t : State} (hi : decode (.step c) = .ok i)
    (hd : stepTable c = some d) (hlit : d.kind = .lit → s.lcur.toNat < d.len.toNat)
    (hfull : (stepRun d s).1 = .full) (ht : exec i s = .next t) (r : Nat) :
    exec i { t with rem := r } = exec i { s with rem := s.rem + r } := by
  obtain ⟨d', hd', hrun⟩ := exec_of_decode_step hi
  cases hd.symm.trans hd'
  have hpaused : t = reported Status.full (stepRun d s).2 := by
    cases (hrun s).symm.trans ht
    rw [hfull, afterStep_full]
  have hagain : ({ t with rem := r } : State) = reported Status.full { (stepRun d s).2 with rem := r } := by
    rw [hpaused]
    rfl
  rw [hagain, hrun, hrun, stepRun_reported, afterStep_reported, stepRun_resume d r hlit hfull]

/-- Settles O36: `buffer_full` is reported exactly by a paused sub-encoder, which resumes. -/
theorem pausedStepResumesAsOneUnbrokenStep : Obligations.PausedStepResumesAsOneUnbrokenStep := by
  unfold Obligations.PausedStepResumesAsOneUnbrokenStep
  intro c i s t r1 r2 hi hlit ht hbufferFull
  obtain ⟨d, hd, hstep⟩ := exec_step_cases hi ht
  have hfull : (stepRun d { s with rem := r1 }).1 = .full := by
    cases hst : (stepRun d { s with rem := r1 }).1 with
    | full => rfl
    | complete =>
      rw [hstep, hst, afterStep_rsp] at hbufferFull
      simp only [statusAfter] at hbufferFull
      split at hbufferFull <;> cases hbufferFull
  exact exec_step_resume (s := { s with rem := r1 }) hi hd (hlit d hd) hfull ht r2

/-! ### The contract of each step -/

/-- Arms (B), (B') and (C) of R141. -/
theorem afterStep_complete_advanced (c : BitVec 4) (s : State) : Advanced c (s.afterStep c .complete) := by
  refine ⟨fun h => ?_, fun h => ?_⟩
  · simp [h, statusAfter, Status.completed]
  · simp only [afterStep_cur, afterStep_rsp, afterStep_busy, afterStep_rem, statusAfter, if_neg h, Status.none,
      decide_eq_true_eq, and_self]

/-- Arm (A) of R141. -/
theorem afterStep_full_paused (c : BitVec 4) {s u : State} (hcur : u.cur = s.cur) : Paused s (u.afterStep c .full) :=
  ⟨hcur, rfl, rfl⟩

/-- Settles O32: the closed form of BITS_ENCODE at both sides of the end of the span, then the arms of R141. -/
theorem bitsStepsEmitTheBitsOfTheirField : Obligations.BitsStepsEmitTheBitsOfTheirField := by
  unfold Obligations.BitsStepsEmitTheBitsOfTheirField
  intro i c k hrow s
  obtain ⟨hi, hd⟩ := stepTable_of_bits hrow
  have ht : exec i s = .next (bitsStep c k s) := exec_bits hrow s
  have hsame : SameBuild s (bitsStep c k s) := by
    obtain ⟨d, -, hstep⟩ := exec_step_cases hi ht
    exact sameBuild_of_frameStepOf hstep
  have hform : bitsStep c k s = (bitsEncode k s).2.afterStep c (bitsEncode k s).1 := rfl
  have hrun : stepRun ⟨.bits, k.setWidth 3, 0⟩ s = bitsEncode k s := by simp [stepRun]
  have hstatus := bitsEncode_status k s
  refine ⟨_, ht, bitsStep_dst c k s, ?_, fun hend => ?_, fun hshort => ?_, hsame, ?_, ?_, ?_, fun hshort r => ?_⟩
  · simp [hform, bitsEncode_spec]
  · rw [if_pos hend] at hstatus
    rw [hform, hstatus]
    refine ⟨?_, afterStep_complete_advanced c _⟩
    have hm : s.bcur.toNat + min s.rem (32 - s.bcur.toNat) = 32 := by
      have := s.bcur.isLt
      omega
    simp [bitsEncode_spec, hm]
  · rw [if_neg (by omega)] at hstatus
    rw [hform, hstatus, bitsEncode_paused k hshort]
    exact ⟨Nat.mod_eq_of_lt hshort, afterStep_full_paused c rfl⟩
  · simp [hform, bitsEncode_spec]
  · simp [hform, bitsEncode_spec]
  · simp [hform, bitsEncode_spec]
  · rw [if_neg (by omega)] at hstatus
    exact exec_step_resume hi hd nofun (by rw [hrun, hstatus]) ht r

/-- The words of an array by their register numbers (42_literal_encoder.md R131). -/
theorem litWords_eq_registers (s : State) {a : BitVec 3} {l m : Nat} (h : a.toNat + l + m ≤ 8) :
    litWords s a l m = (List.range m).map fun j => s.x[a.toNat + l + j]?.getD 0 := by
  refine List.map_congr_left fun j hj => ?_
  have hj : j < m := List.mem_range.1 hj
  have hindex : (a + BitVec.ofNat 3 (l + j)).toNat = a.toNat + l + j := by
    rw [BitVec.toNat_add, BitVec.toNat_ofNat]
    omega
  have hlt : a.toNat + l + j < 8 := by omega
  simp [readPrim, hindex, hlt]

/-- Settles O33: the closed form of LIT_ENCODE at both sides of the end of the array, then the arms of R141. -/
theorem literalStepsCopyTheirSymbols : Obligations.LiteralStepsCopyTheirSymbols := by
  unfold Obligations.LiteralStepsCopyTheirSymbols
  intro i c a n hrow s hl
  obtain ⟨hi, -, hregs⟩ := stepTable_of_lits hrow
  have ht : exec i s = .next (litStep c a n s) := exec_lits hrow s
  have hsame : SameBuild s (litStep c a n s) := by
    obtain ⟨d, -, hstep⟩ := exec_step_cases hi ht
    exact sameBuild_of_frameStepOf hstep
  have hform : litStep c a n s = (litEncode a n s).2.afterStep c (litEncode a n s).1 := rfl
  have hstatus := litEncode_status a n hl
  refine ⟨_, ht, ?_, ?_, fun hend => ?_, fun hshort => ?_, hsame, ?_, ?_, ?_⟩
  · rw [litStep_dst c a hl, litWords_eq_registers s (by omega)]
  · simp [hform, litEncode_spec a n s hl]
  · rw [if_pos hend] at hstatus
    rw [hform, hstatus]
    refine ⟨?_, afterStep_complete_advanced c _⟩
    have hm : s.lcur.toNat + min s.rem (n.toNat - s.lcur.toNat) = n.toNat := by omega
    simp [litEncode_spec a n s hl, hm]
  · rw [if_neg (by omega)] at hstatus
    rw [hform, hstatus, litEncode_paused a n hshort]
    have hn := n.isLt
    exact ⟨Nat.mod_eq_of_lt (by omega), afterStep_full_paused c rfl⟩
  · simp [hform, litEncode_spec a n s hl]
  · simp [hform, litEncode_spec a n s hl]
  · simp [hform, litEncode_spec a n s hl]

end Sys2Proof.Proofs
end

section
/-! The frame and the position in it (43_frame_steps.md R157, 10_state.md R24). -/

open Sys2Proof Sys2Proof.Machine Sys2Proof.Rows

namespace Sys2Proof.Proofs

/-- Symbol `j` of step `c` stands at index `base[c] + j` of the frame (30_encoding.md R78). -/
theorem frame_getElem? (s : State) (sc : ScanCode) (c : BitVec 4) {g : List Word} {j p : Nat}
    (hg : (frameParts s sc)[c.toNat]? = some g) (hj : j < g.length) (hp : baseTable.getD c.toNat 0 + j = p) :
    (frame s sc)[p]? = g[j]? := by
  have hpart := frame_part s sc c g hg
  have hcut : (((frame s sc).drop (baseTable.getD c.toNat 0)).take g.length)[j]? = (frame s sc)[p]? := by
    rw [List.getElem?_take_of_lt hj, List.getElem?_drop, hp]
  rw [← hcut, hpart]

theorem fieldShapes_getElem? (s : State) (sc : ScanCode) (k : BitVec 2) (i : BitVec 5) :
    (fieldShapes s sc k)[i.toNat]? = some (bitShape s (fieldBit sc k i)) := by
  have hi : i.toNat < 32 := i.isLt
  simp [fieldShapes, hi]

/-- Bit `i` of field `k + 1` stands at the index of the field's BITS step plus `i` (43_frame_steps.md R157). -/
theorem frame_field_getElem? (s : State) (sc : ScanCode) (c : BitVec 4) (k : BitVec 2) (i : BitVec 5)
    (hg : (frameParts s sc)[c.toNat]? = some (fieldShapes s sc k)) :
    (frame s sc)[baseTable.getD c.toNat 0 + i.toNat]? = some (bitShape s (fieldBit sc k i)) := by
  rw [frame_getElem? s sc c hg (by simpa using i.isLt) rfl, fieldShapes_getElem?]

/-- Settles O48: each index lies in the part of one step. -/
theorem frameHas141Symbols : Obligations.FrameHas141Symbols := by
  unfold Obligations.FrameHas141Symbols
  intro s sc
  exact ⟨frame_length s sc,
    frame_getElem? s sc 0 (j := 0) rfl (by simp) rfl,
    fun i => frame_field_getElem? s sc 1 0 i rfl,
    frame_getElem? s sc 2 (j := 0) rfl (by simp) rfl,
    frame_getElem? s sc 2 (j := 1) rfl (by simp) rfl,
    frame_getElem? s sc 2 (j := 2) rfl (by simp) rfl,
    frame_getElem? s sc 3 (j := 0) rfl (by simp) rfl,
    fun i => frame_field_getElem? s sc 4 1 i rfl,
    frame_getElem? s sc 5 (j := 0) rfl (by simp) rfl,
    frame_getElem? s sc 5 (j := 1) rfl (by simp) rfl,
    frame_getElem? s sc 6 (j := 0) rfl (by simp) rfl,
    fun i => frame_field_getElem? s sc 7 2 i rfl,
    frame_getElem? s sc 8 (j := 0) rfl (by simp) rfl,
    frame_getElem? s sc 8 (j := 1) rfl (by simp) rfl,
    frame_getElem? s sc 8 (j := 2) rfl (by simp) rfl,
    frame_getElem? s sc 9 (j := 0) rfl (by simp) rfl,
    fun i => frame_field_getElem? s sc 10 3 i rfl,
    frame_getElem? s sc 11 (j := 0) rfl (by simp) rfl⟩

/-- A step ends where the next one begins (30_encoding.md R78). -/
theorem stepEnd_eq_base_succ (c : BitVec 4) (h : c.toNat < 11) :
    stepEnd c = baseTable.getD (c + 1).toNat 0 := by
  revert c; decide

theorem stepEnd_lt_of_lt (c : BitVec 4) (h : c.toNat < 11) : stepEnd c < 141 := by
  revert c; decide

/-- The steps follow one another in the frame (30_encoding.md R78). -/
theorem stepEnd_le_base_of_lt (c c' : BitVec 4) (h : c.toNat < c'.toNat) (h' : c'.toNat ≤ 11) :
    stepEnd c ≤ baseTable.getD c'.toNat 0 := by
  revert c c'; decide

/-- No step begins inside another (30_encoding.md R78). -/
theorem not_mem_baseTable (c : BitVec 4) (hc : c.toNat ≤ 11) {p : Nat} (hlo : baseTable.getD c.toNat 0 < p)
    (hhi : p < stepEnd c) : p ∉ baseTable := by
  have houtside : ∀ c : BitVec 4, c.toNat ≤ 11 → ∀ q ∈ baseTable, q ≤ baseTable.getD c.toNat 0 ∨ stepEnd c ≤ q := by
    decide
  intro hmem
  have := houtside c hc p hmem
  omega

theorem base_mem_baseTable (c : BitVec 4) (h : c.toNat ≤ 11) : baseTable.getD c.toNat 0 ∈ baseTable := by
  revert c; decide

theorem base_le_pos (s : State) : baseTable.getD s.cur.toNat 0 ≤ s.pos := by
  simp only [State.pos]
  omega

/-- Two resumption states at one position are in the same step. -/
theorem cur_eq_of_pos_eq {s t : State} (hs : s.resumable = true) (ht : t.resumable = true) (h : s.pos = t.pos) :
    s.cur = t.cur := by
  have hs1 := pos_lt_stepEnd hs
  have ht1 := pos_lt_stepEnd ht
  have hs2 := base_le_pos s
  have ht2 := base_le_pos t
  rcases Nat.lt_trichotomy s.cur.toNat t.cur.toNat with hlt | heq | hgt
  · have := stepEnd_le_base_of_lt _ _ hlt (cur_le_of_resumable ht)
    omega
  · exact BitVec.eq_of_toNat_eq heq
  · have := stepEnd_le_base_of_lt _ _ hgt (cur_le_of_resumable hs)
    omega

/-- In a resumption state one of the two sub-encoder cursors is 0, the same one at every state of a step (10_state.md
R23). -/
theorem subcursor_zero_of_resumable {s : State} (h : s.resumable = true) :
    ∃ d, stepTable s.cur = some d ∧ (d.kind = .bits → s.lcur = 0) ∧ (d.kind = .lit → s.bcur = 0) := by
  unfold State.resumable at h
  cases hd : stepTable s.cur with
  | none => simp [hd] at h
  | some d =>
    refine ⟨d, rfl, fun hk => ?_, fun hk => ?_⟩
    · simpa [hd, hk] using h
    · simp only [hd, hk, Bool.and_eq_true, beq_iff_eq] at h
      exact h.1

/-- The position determines a resumption state (10_state.md R24). -/
theorem cursors_eq_of_pos_eq {s t : State} (hs : s.resumable = true) (ht : t.resumable = true) (h : s.pos = t.pos) :
    s.cur = t.cur ∧ s.bcur = t.bcur ∧ s.lcur = t.lcur := by
  have hcur := cur_eq_of_pos_eq hs ht h
  obtain ⟨d, hd, hbits, hlit⟩ := subcursor_zero_of_resumable hs
  obtain ⟨d', hd', hbits', hlit'⟩ := subcursor_zero_of_resumable ht
  rw [← hcur, hd] at hd'
  cases hd'
  have hsum : s.bcur.toNat + s.lcur.toNat = t.bcur.toNat + t.lcur.toNat := by
    simp only [State.pos, hcur] at h
    omega
  cases hk : d.kind with
  | bits =>
    rw [hbits hk, hbits' hk] at hsum ⊢
    exact ⟨hcur, BitVec.eq_of_toNat_eq (Nat.add_right_cancel hsum), rfl⟩
  | lit =>
    rw [hlit hk, hlit' hk] at hsum ⊢
    exact ⟨hcur, rfl, BitVec.eq_of_toNat_eq (Nat.add_left_cancel hsum)⟩

end Sys2Proof.Proofs
end

section
/-! One ENCODE in closed form (43_frame_steps.md section 4), from one frame step to the whole call. -/

open Sys2Proof Sys2Proof.Machine Sys2Proof.Rows

namespace Sys2Proof.Proofs

/-- What is left of a call at `s`, run to its end `t`: the words of the frame from the position on, as far as the
capacity and the frame reach, and the flags and cursors that follow (43_frame_steps.md R158, R159). -/
structure CallRan (s t : State) : Prop where
  words : s.SuffixBuilt →
    t.rsp.dst = s.rsp.dst ++ ((frame s s.sc).drop s.pos).take (min s.rem (141 - s.pos))
  count : t.rsp.n = s.rsp.n + min s.rem (141 - s.pos)
  rem : t.rem = s.rem - min s.rem (141 - s.pos)
  err : t.rsp.err = s.rsp.err
  ended : 141 ≤ s.pos + s.rem → t.AtStart ∧ t.rsp.status = Status.completed
  stopped : s.pos + s.rem < 141 → t.pos = s.pos + s.rem ∧
    t.rsp.status = if 0 < s.rem ∧ s.pos + s.rem ∈ baseTable then Status.none else Status.full
  resumable : t.resumable = true
  build : SameBuild s t
  sc : t.sc = s.sc
  busy : t.busy = false

theorem n_of_frameStepped {s t : State} (h : FrameStepped s t) :
    t.rsp.n = s.rsp.n + min s.rem (stepEnd s.cur - s.pos) := by
  obtain ⟨ws, hlen, hdst⟩ := h.count
  simp [Response.n, hdst, hlen]

theorem cur_lt_eleven {s : State} (hr : s.resumable = true) (h11 : s.cur ≠ 11) : s.cur.toNat < 11 := by
  have hle := cur_le_of_resumable hr
  have hne : s.cur.toNat ≠ 11 := fun h => h11 (BitVec.eq_of_toNat_eq h)
  omega

/-- A frame step that advances goes to the base of the next step (10_state.md R24). -/
theorem pos_of_advanced {s t : State} (hr : s.resumable = true) (h11 : s.cur ≠ 11) (hcur : t.cur = s.cur + 1)
    (hb : t.bcur = 0) (hl : t.lcur = 0) : t.pos = stepEnd s.cur := by
  rw [pos_start hb hl, hcur, stepEnd_eq_base_succ _ (cur_lt_eleven hr h11)]

/-- Only an advanced step goes on, and with capacity left (43_frame_steps.md R141, arm (B)). -/
theorem advanced_of_busy {s t : State} (hr : s.resumable = true) (h : FrameStepped s t) (hbusy : t.busy = true) :
    stepEnd s.cur < s.pos + s.rem ∧ s.cur ≠ 11 ∧ t.cur = s.cur + 1 ∧ t.pos = stepEnd s.cur := by
  by_cases hend : stepEnd s.cur ≤ s.pos + s.rem
  · by_cases h11 : s.cur = 11
    · obtain ⟨-, -, -, -, hidle⟩ := h.last h11 hend
      simp [hidle] at hbusy
    · obtain ⟨hcur, hb, hl, -, hgoes⟩ := h.inner h11 hend
      have hrem : 0 < t.rem := by simpa [hbusy] using hgoes.symm
      rw [h.rem] at hrem
      exact ⟨by omega, h11, hcur, pos_of_advanced hr h11 hcur hb hl⟩
  · obtain ⟨-, -, -, hidle⟩ := h.paused (Nat.lt_of_not_le hend)
    simp [hidle] at hbusy

/-- A frame step that ends the call and emits all that the call can is the whole of what was left of it. -/
theorem callRan_of_frameStepped {s t : State} (h : FrameStepped s t) (hidle : t.busy = false)
    (hall : min s.rem (stepEnd s.cur - s.pos) = min s.rem (141 - s.pos))
    (hended : 141 ≤ s.pos + s.rem → t.AtStart ∧ t.rsp.status = Status.completed)
    (hstopped : s.pos + s.rem < 141 → t.pos = s.pos + s.rem ∧
      t.rsp.status = if 0 < s.rem ∧ s.pos + s.rem ∈ baseTable then Status.none else Status.full) : CallRan s t where
  words hs := by rw [h.dst hs, hall]
  count := by rw [n_of_frameStepped h, hall]
  rem := by rw [h.rem, hall]
  err := h.err
  ended := hended
  stopped := hstopped
  resumable := h.resumable
  build := sameBuild_of_frameStepped h
  sc := h.sc
  busy := hidle

/-- A frame step after which the call does not go on ends it: by the terminator, at a step boundary with no capacity
left, or inside the step (43_frame_steps.md R141, arms (C), (B'), (A)). -/
theorem callRan_of_last_step {s t : State} (hr : s.resumable = true) (h : FrameStepped s t) (hidle : t.busy = false) :
    CallRan s t := by
  obtain ⟨hlt, h141⟩ := pos_lt_stepEnd hr
  by_cases hend : stepEnd s.cur ≤ s.pos + s.rem
  · by_cases h11 : s.cur = 11
    · obtain ⟨hcur, hb, hl, hstatus, -⟩ := h.last h11 hend
      have he : stepEnd s.cur = 141 := by rw [h11]; rfl
      exact callRan_of_frameStepped h hidle (by rw [he]) (fun _ => ⟨⟨hcur, hb, hl⟩, hstatus⟩) (fun hshort => by omega)
    · obtain ⟨hcur, hb, hl, hstatus, hgoes⟩ := h.inner h11 hend
      have hc := cur_lt_eleven hr h11
      have hpos : t.pos = stepEnd s.cur := pos_of_advanced hr h11 hcur hb hl
      have hspent : s.rem ≤ stepEnd s.cur - s.pos := by simpa [hidle, h.rem] using hgoes.symm
      have hfit : s.pos + s.rem = stepEnd s.cur := by omega
      have hinside : stepEnd s.cur < 141 := stepEnd_lt_of_lt _ hc
      have hbase : s.pos + s.rem ∈ baseTable := by
        rw [hfit, stepEnd_eq_base_succ _ hc]
        exact base_mem_baseTable _ (succ_cur_le _ hc)
      exact callRan_of_frameStepped h hidle (by omega) (fun hfull => by omega)
        (fun _ => ⟨hpos.trans hfit.symm, by rw [hstatus, if_pos ⟨by omega, hbase⟩]⟩)
  · have hshort : s.pos + s.rem < stepEnd s.cur := Nat.lt_of_not_le hend
    obtain ⟨-, hpos, hstatus, -⟩ := h.paused hshort
    have hnot : ¬(0 < s.rem ∧ s.pos + s.rem ∈ baseTable) := by
      rintro ⟨hrem, hmem⟩
      have hbase := base_le_pos s
      exact not_mem_baseTable s.cur (cur_le_of_resumable hr) (by omega) hshort hmem
    exact callRan_of_frameStepped h hidle (by omega) (fun hfull => by omega)
      (fun _ => ⟨hpos, by rw [hstatus, if_neg hnot]⟩)

/-- A frame step after which the call goes on, and the rest of the call (43_frame_steps.md R141, arm (B)). -/
theorem callRan_of_first_step {s t u : State} (hr : s.resumable = true) (h : FrameStepped s t) (hbusy : t.busy = true)
    (hu : CallRan t u) : CallRan s u := by
  obtain ⟨hlt, h141⟩ := pos_lt_stepEnd hr
  obtain ⟨hend, -, -, hpos⟩ := advanced_of_busy hr h hbusy
  have hm : min s.rem (stepEnd s.cur - s.pos) = stepEnd s.cur - s.pos := by omega
  have hrem : t.rem = s.rem - (stepEnd s.cur - s.pos) := by rw [h.rem, hm]
  have hall : min s.rem (141 - s.pos) = (stepEnd s.cur - s.pos) + min t.rem (141 - t.pos) := by omega
  have hreach : t.pos + t.rem = s.pos + s.rem := by omega
  have hleft : 0 < t.rem ∧ 0 < s.rem := by omega
  refine
    { words := fun hs => ?_
      count := by rw [hu.count, n_of_frameStepped h, hm, hall, Nat.add_assoc]
      rem := by
        rw [hu.rem]
        omega
      err := hu.err.trans h.err
      ended := fun hfull => hu.ended (by omega)
      stopped := fun hshort => ?_
      resumable := hu.resumable
      build := sameBuild_trans (sameBuild_of_frameStepped h) hu.build
      sc := hu.sc.trans h.sc
      busy := hu.busy }
  · have hnext : s.pos + (stepEnd s.cur - s.pos) = t.pos := by omega
    rw [hu.words (suffixBuilt_congr hs h.x h.bit0 h.bit1), h.dst hs, frame_congr t.sc h.x h.bit0 h.bit1, h.sc, hm, hall,
      List.append_assoc, List.take_add, List.drop_drop, hnext]
  · have hstop := hu.stopped (by omega)
    simpa only [hreach, hleft] using hstop

/-- The loop of FRAME_RUN runs a call to its end: twelve turns are enough (43_frame_steps.md R141). -/
theorem frameLoop_callRan (fuel : Nat) {s : State} (hr : s.resumable = true) (hfuel : 12 ≤ s.cur.toNat + fuel) :
    CallRan s (frameLoop fuel s) := by
  induction fuel generalizing s with
  | zero =>
    have hle := cur_le_of_resumable hr
    omega
  | succ fuel ih =>
    have h := frameStep_spec s hr
    rw [frameLoop]
    cases hbusy : (frameStep s).busy with
    | false => exact callRan_of_last_step hr h hbusy
    | true =>
      obtain ⟨-, h11, hcur, -⟩ := advanced_of_busy hr h hbusy
      have hnext : (s.cur + 1).toNat = s.cur.toNat + 1 := by
        have hlt := cur_lt_eleven hr h11
        rw [BitVec.toNat_add]
        exact Nat.mod_eq_of_lt (by simpa using by omega)
      exact callRan_of_first_step hr h hbusy (ih h.resumable (by rw [hcur, hnext]; omega))

/-- What an accepted ENCODE of capacity `cap` at `s` leaves (43_frame_steps.md R158, R159). -/
structure Encoded (s : State) (sc : ScanCode) (cap : Nat) (t : State) : Prop where
  words : s.SuffixBuilt → t.rsp.dst = ((frame s sc).drop s.pos).take (min cap (141 - s.pos))
  count : t.rsp.n = min cap (141 - s.pos)
  rem : t.rem = cap - min cap (141 - s.pos)
  err : t.rsp.err = .ok
  ended : 141 ≤ s.pos + cap → t.AtStart ∧ t.rsp.status = Status.completed
  stopped : s.pos + cap < 141 → t.pos = s.pos + cap ∧
    t.rsp.status = if 0 < cap ∧ s.pos + cap ∈ baseTable then Status.none else Status.full
  resumable : t.resumable = true
  build : SameBuild s t
  sc : t.sc = sc
  busy : t.busy = false

theorem frameRun_encoded {s : State} (hr : s.resumable = true) (sc : ScanCode) (cap : Nat) :
    Encoded s sc cap (frameRun sc cap s) := by
  have h : CallRan (s.beginCall sc cap) (frameRun sc cap s) :=
    frameLoop_callRan 12 hr (Nat.le_add_left _ _)
  exact
    { words := h.words
      count := h.count.trans (Nat.zero_add _)
      rem := h.rem
      err := h.err
      ended := h.ended
      stopped := h.stopped
      resumable := h.resumable
      build := sameBuild_trans (beginCall_sameBuild s sc cap) h.build
      sc := h.sc
      busy := h.busy }

/-- Every position up to 140 is where a frame run of that capacity from the start ends. -/
theorem exists_resumable_at (p : Nat) (hp : p ≤ 140) : ∃ t : State, t.resumable = true ∧ t.pos = p := by
  have hstart : State.reset.AtStart := ⟨rfl, rfl, rfl⟩
  have h := frameRun_encoded (resumable_of_atStart hstart) zeroScanCode p
  have hzero : State.reset.pos = 0 := pos_of_atStart hstart
  obtain ⟨hpos, -⟩ := h.stopped (by omega)
  exact ⟨_, h.resumable, by omega⟩

/-- Settles O49: a position lies inside the frame; the steps are disjoint in it; a frame run reaches each position. -/
theorem positionNumbersTheResumptionStates : Obligations.PositionNumbersTheResumptionStates := by
  unfold Obligations.PositionNumbersTheResumptionStates
  refine ⟨fun s hs => ?_, fun s t => cursors_eq_of_pos_eq, fun p hp => ?_⟩
  · have := pos_lt_stepEnd hs
    omega
  · obtain ⟨t, hr, hpos⟩ := exists_resumable_at p hp
    exact ⟨t.cur, t.bcur, t.lcur, fun s hc hb hl =>
      ⟨(resumable_congr hc hb hl).trans hr, (pos_congr hc hb hl).trans hpos⟩⟩

end Sys2Proof.Proofs
end

section
/-! What one ENCODE gives the host, and what a sequence of calls gives it (43_frame_steps.md section 4): corollaries of
the closed form. -/

open Sys2Proof Sys2Proof.Machine Sys2Proof.Rows

namespace Sys2Proof.Proofs

/-- An ENCODE in a steady state is accepted (44_host_operations.md R172). -/
theorem exec_encode_steady {s : State} (hinv : s.Inv) (hready : s.Ready) (sc : ScanCode) (cap : Nat) :
    ∃ t, exec (.encode sc cap) s = .next t ∧ Encoded s sc cap t := by
  obtain ⟨hr, -⟩ := hinv
  exact ⟨_, execEncode_accepted hready hr, frameRun_encoded hr sc cap⟩

theorem encoded_of_exec {s t : State} {sc : ScanCode} {cap : Nat} (hinv : s.Inv) (hready : s.Ready)
    (ht : exec (.encode sc cap) s = .next t) : Encoded s sc cap t := by
  obtain ⟨u, hu, henc⟩ := exec_encode_steady hinv hready sc cap
  cases hu.symm.trans ht
  exact henc

theorem suffixBuilt_of_inv {s : State} (hinv : s.Inv) (hready : s.Ready) : s.SuffixBuilt := by
  obtain ⟨-, -, hprims, -, -⟩ := hinv
  exact suffixBuilt_of_primsBuilt hprims hready.1

theorem pos_le_of_inv {s : State} (hinv : s.Inv) : s.pos ≤ 140 := by
  have := pos_lt_stepEnd hinv.1
  omega

/-- Settles O38: the closed form of an accepted ENCODE. -/
theorem encodeEmitsTheNextPartOfTheFrame : Obligations.EncodeEmitsTheNextPartOfTheFrame := by
  unfold Obligations.EncodeEmitsTheNextPartOfTheFrame
  intro s sc cap hinv hready
  obtain ⟨t, ht, h⟩ := exec_encode_steady hinv hready sc cap
  exact ⟨t, ht, h.err, h.count, h.words (suffixBuilt_of_inv hinv hready), h.ended,
    fun hshort => ⟨h.resumable, h.stopped hshort⟩, h.build, h.sc, h.rem, h.busy⟩

/-- `complete` is reported exactly when the capacity reaches the end of the frame (43_frame_steps.md R158). -/
theorem encoded_complete_iff {s t : State} {sc : ScanCode} {cap : Nat} (h : Encoded s sc cap t) :
    t.rsp.status.complete = true ↔ 141 ≤ s.pos + cap := by
  by_cases hend : 141 ≤ s.pos + cap
  · simp [(h.ended hend).2, Status.completed, hend]
  · have hshort : s.pos + cap < 141 := Nat.lt_of_not_le hend
    rw [(h.stopped hshort).2]
    simp only [hend, iff_false]
    split <;> simp [Status.none, Status.full]

/-- A built encoder keeps its invariant and its readiness over an ENCODE. -/
theorem encoded_keeps_inv {s t : State} {sc : ScanCode} {cap : Nat} (hinv : s.Inv) (hready : s.Ready)
    (ht : exec (.encode sc cap) s = .next t) : t.Inv ∧ t.Ready := by
  have h := encoded_of_exec hinv hready ht
  obtain ⟨-, -, hprims, -, -⟩ := hinv
  obtain ⟨hvalid, hx, h0, h1⟩ := hprims hready.1
  obtain ⟨hbuilt, hfault, hx', h0', h1', htt', -, -⟩ := h.build
  have hbuilt' : t.built = true := hbuilt.trans hready.1
  have hn : t.rsp.n ≤ 141 := by
    rw [h.count]
    omega
  refine ⟨⟨h.resumable, fun hno => ?_, fun _ => ?_, ⟨?_, exec_flagsExclusive ht, fun herr => ?_, hn⟩, fun hbusy => ?_⟩,
    hbuilt', hfault.trans hready.2⟩
  · exact nomatch hno.symm.trans hbuilt'
  · rw [hx', h0', h1', htt']
    exact ⟨hvalid, hx, h0, h1⟩
  · simp [h.err]
  · exact absurd h.err herr
  · exact nomatch hbusy.symm.trans h.busy

theorem frame_of_sameBuild {s t : State} (h : SameBuild s t) (sc : ScanCode) : frame t sc = frame s sc := by
  obtain ⟨-, -, hx, h0, h1, -, -, -⟩ := h
  exact frame_congr sc hx h0 h1

/-- What an ENCODE that ends the frame writes. -/
theorem encoded_words_to_end {s t : State} {sc : ScanCode} {cap : Nat} (h : Encoded s sc cap t) (hs : s.SuffixBuilt)
    (hend : 141 ≤ s.pos + cap) : t.rsp.dst = (frame s sc).drop s.pos := by
  rw [h.words hs, List.take_of_length_le]
  simp
  omega

/-- What an ENCODE that does not end the frame writes. -/
theorem encoded_words_to_capacity {s t : State} {sc : ScanCode} {cap : Nat} (h : Encoded s sc cap t)
    (hs : s.SuffixBuilt) (hshort : s.pos + cap < 141) : t.rsp.dst = ((frame s sc).drop s.pos).take cap := by
  rw [h.words hs, Nat.min_eq_left (by omega)]

/-- An ENCODE at the start with capacity for the frame gives the frame (43_frame_steps.md R159). -/
theorem exec_encode_whole_frame {s : State} (hready : s.Ready) (hstart : s.AtStart) (hs : s.SuffixBuilt) (sc : ScanCode)
    {cap : Nat} (hcap : 141 ≤ cap) :
    ∃ u, exec (.encode sc cap) s = .next u ∧ u.rsp.dst = frame s sc ∧ u.rsp.status = ⟨true, false⟩ ∧
      u.rsp.n = 141 := by
  have hr := resumable_of_atStart hstart
  have h := frameRun_encoded hr sc cap
  have hpos := pos_of_atStart hstart
  have hend : 141 ≤ s.pos + cap := by omega
  refine ⟨_, execEncode_accepted hready hr, ?_, (h.ended hend).2, ?_⟩
  · rw [encoded_words_to_end h hs hend, hpos, List.drop_zero]
  · rw [h.count]
    omega

/-- Settles O25: RESET only puts the cursors to the start, from where a frame is whole. -/
theorem resetIsIdempotentAndTheNextFrameIsWhole : Obligations.ResetIsIdempotentAndTheNextFrameIsWhole := by
  unfold Obligations.ResetIsIdempotentAndTheNextFrameIsWhole
  intro s t hinv hready ht
  have hs : s.SuffixBuilt := suffixBuilt_of_inv hinv hready
  cases (execReset_accepted hready).symm.trans ht
  exact ⟨execReset_accepted (s := s.resetCursors.respond .ok) hready, fun sc cap hcap =>
    exec_encode_whole_frame (s := s.resetCursors.respond .ok) hready (resetCursors_respond_atStart s .ok) hs sc hcap⟩

/-- Settles O43: each flag by whether the capacity reaches the end of the frame. -/
theorem flagsTellTheHostWhatHappened : Obligations.FlagsTellTheHostWhatHappened := by
  unfold Obligations.FlagsTellTheHostWhatHappened
  intro s t sc cap hinv hready ht
  have h := encoded_of_exec hinv hready ht
  have hpos := pos_le_of_inv hinv
  have hcomplete := encoded_complete_iff h
  have hopen : t.rsp.status.complete = false → s.pos + cap < 141 := fun hno =>
    Nat.lt_of_not_le fun hend => nomatch hno.symm.trans (hcomplete.2 hend)
  rw [h.count]
  refine ⟨by omega, by omega, fun hlt => hcomplete.2 (by omega), fun hc => ?_, fun hst => ?_, fun hst => ?_⟩
  · have := hcomplete.1 hc
    omega
  · have := hopen (by rw [hst])
    omega
  · have hshort := hopen (by rw [hst])
    have hstatus := (h.stopped hshort).2
    rw [hst] at hstatus
    by_cases hboundary : 0 < cap ∧ s.pos + cap ∈ baseTable
    · omega
    · rw [if_neg hboundary] at hstatus
      exact nomatch hstatus

/-- Settles O44: `complete` is reported at the start, from where a frame is whole. -/
theorem encodeAfterCompleteStartsANewFrame : Obligations.EncodeAfterCompleteStartsANewFrame := by
  unfold Obligations.EncodeAfterCompleteStartsANewFrame
  intro s t sc sc' cap cap' hinv hready ht hcomplete hcap
  have h := encoded_of_exec hinv hready ht
  obtain ⟨hinv', hready'⟩ := encoded_keeps_inv hinv hready ht
  obtain ⟨hstart, -⟩ := h.ended ((encoded_complete_iff h).1 hcomplete)
  obtain ⟨u, hu, hdst, hstatus, -⟩ :=
    exec_encode_whole_frame hready' hstart (suffixBuilt_of_inv hinv' hready') sc' hcap
  exact ⟨u, hu, hdst.trans (frame_of_sameBuild h.build sc'), hstatus⟩

/-- Settles O45: the first call writes the first frame up to its end position, the second call the other frame from
it. -/
theorem scanCodeIsSampledAtEachCall : Obligations.ScanCodeIsSampledAtEachCall := by
  unfold Obligations.ScanCodeIsSampledAtEachCall
  intro s t sc sc' cap cap' hinv hready hstart hcap hsum ht
  have h := encoded_of_exec hinv hready ht
  have hzero := pos_of_atStart hstart
  have hshort : s.pos + cap < 141 := by omega
  obtain ⟨hpos, -⟩ := h.stopped hshort
  obtain ⟨hinv', hready'⟩ := encoded_keeps_inv hinv hready ht
  obtain ⟨u, hu, h'⟩ := exec_encode_steady hinv' hready' sc' cap'
  have hfirst : t.rsp.dst = (frame s sc).take t.pos := by
    rw [encoded_words_to_capacity h (suffixBuilt_of_inv hinv hready) hshort, hpos, hzero, List.drop_zero, Nat.zero_add]
  have hsecond : u.rsp.dst = (frame s sc').drop t.pos := by
    rw [encoded_words_to_end h' (suffixBuilt_of_inv hinv' hready') (by omega), frame_of_sameBuild h.build]
  exact ⟨u, hu, by rw [hfirst, hsecond]⟩

/-- Two states that keep one build and agree in the rest are one state. -/
theorem eq_of_sameBuild {s t u : State} (ht : SameBuild s t) (hu : SameBuild s u)
    (hcursors : t.cur = u.cur ∧ t.bcur = u.bcur ∧ t.lcur = u.lcur) (hsc : t.sc = u.sc) (hrem : t.rem = u.rem)
    (hrsp : t.rsp = u.rsp) (hbusy : t.busy = u.busy) : t = u := by
  obtain ⟨hbuilt, hfault, hx, h0, h1, htt, hinputs, hfree⟩ := ht
  obtain ⟨hbuilt', hfault', hx', h0', h1', htt', hinputs', hfree'⟩ := hu
  obtain ⟨hc, hb, hl⟩ := hcursors
  cases t
  cases u
  simp_all

/-- Settles O41: with no capacity the position stays, and the position determines the cursors. -/
theorem zeroCapacityChangesNothing : Obligations.ZeroCapacityChangesNothing := by
  unfold Obligations.ZeroCapacityChangesNothing
  intro s sc hinv hready
  obtain ⟨t, ht, h⟩ := exec_encode_steady hinv hready sc 0
  have hpos := pos_le_of_inv hinv
  obtain ⟨hstay, hstatus⟩ := h.stopped (by omega)
  have hdst : t.rsp.dst = [] := by simpa using h.words (suffixBuilt_of_inv hinv hready)
  have hrsp : t.rsp = ⟨.ok, ⟨false, true⟩, []⟩ := by
    rw [← hdst, ← h.err, show (⟨false, true⟩ : Status) = t.rsp.status from hstatus.symm]
  rw [ht]
  refine congrArg Host.Outcome.next (eq_of_sameBuild h.build ⟨rfl, rfl, rfl, rfl, rfl, rfl, rfl, rfl⟩
    (cursors_eq_of_pos_eq h.resumable ?_ hstay) h.sc ?_ hrsp h.busy)
  · exact hinv.1
  · simpa using h.rem

/-- Two accepted ENCODEs from one state whose capacities reach equally far end at the same cursors with the same
flags. -/
theorem encoded_agree {s t u : State} {sc sc' : ScanCode} {cap cap' : Nat} (ht : Encoded s sc cap t)
    (hu : Encoded s sc' cap' u) (hcap : cap = cap' ∨ (141 ≤ s.pos + cap ∧ 141 ≤ s.pos + cap')) :
    (t.cur = u.cur ∧ t.bcur = u.bcur ∧ t.lcur = u.lcur) ∧ t.rsp.status = u.rsp.status ∧ t.rsp.n = u.rsp.n := by
  by_cases hend : 141 ≤ s.pos + cap
  · obtain ⟨⟨hc, hb, hl⟩, hstatus⟩ := ht.ended hend
    obtain ⟨⟨hc', hb', hl'⟩, hstatus'⟩ := hu.ended (by omega)
    refine ⟨⟨hc.trans hc'.symm, hb.trans hb'.symm, hl.trans hl'.symm⟩, hstatus.trans hstatus'.symm, ?_⟩
    rw [ht.count, hu.count]
    omega
  · have heq : cap = cap' := hcap.resolve_right fun h => hend h.1
    subst heq
    obtain ⟨hpos, hstatus⟩ := ht.stopped (Nat.lt_of_not_le hend)
    obtain ⟨hpos', hstatus'⟩ := hu.stopped (Nat.lt_of_not_le hend)
    exact ⟨cursors_eq_of_pos_eq ht.resumable hu.resumable (hpos.trans hpos'.symm), hstatus.trans hstatus'.symm,
      ht.count.trans hu.count.symm⟩

/-- Settles O46: the closed form of the count, the flags and the cursors reads no payload; a refused ENCODE reads none
either. -/
theorem payloadDoesNotChangeCountsFlagsOrCursors : Obligations.PayloadDoesNotChangeCountsFlagsOrCursors := by
  unfold Obligations.PayloadDoesNotChangeCountsFlagsOrCursors
  intro s t u sc sc' cap ht hu
  rcases exec_encode_cases ht with ⟨hready, hr, rfl⟩ | ⟨hno, rfl⟩
  · cases (execEncode_accepted hready hr).symm.trans hu
    have h := frameRun_encoded hr sc cap
    have h' := frameRun_encoded hr sc' cap
    obtain ⟨⟨hc, hb, hl⟩, hstatus, hn⟩ := encoded_agree h h' (.inl rfl)
    obtain ⟨-, hfault, -⟩ := h.build
    obtain ⟨-, hfault', -⟩ := h'.build
    exact ⟨hn, hstatus, h.err.trans h'.err.symm, hc, hb, hl, h.rem.trans h'.rem.symm, hfault.trans hfault'.symm⟩
  · cases (execEncode_refused hno).symm.trans hu
    exact ⟨rfl, rfl, rfl, rfl, rfl, rfl, rfl, rfl⟩

theorem response_fields_n {r : Response} (h : r.n ≤ 141) : r.fields.2.1.toNat = r.n :=
  Nat.mod_eq_of_lt (Nat.lt_of_le_of_lt h (by decide))

/-- Settles O47: both capacities reach the end of the frame, and a refused ENCODE reads no capacity. -/
theorem capacitiesBeyondTheFrameBehaveAlike : Obligations.CapacitiesBeyondTheFrameBehaveAlike := by
  unfold Obligations.CapacitiesBeyondTheFrameBehaveAlike
  intro s t u sc cap hinv hcap ht hu
  rcases exec_encode_cases ht with ⟨hready, hr, rfl⟩ | ⟨hno, rfl⟩
  · cases (execEncode_accepted hready hr).symm.trans hu
    have h := frameRun_encoded hr sc cap
    have h' := frameRun_encoded hr sc 141
    have hend : 141 ≤ s.pos + cap := by omega
    have hend' : 141 ≤ s.pos + 141 := by omega
    have hs := suffixBuilt_of_inv hinv hready
    obtain ⟨hcursors, hstatus, -⟩ := encoded_agree h h' (.inr ⟨hend, hend'⟩)
    have hdst := (encoded_words_to_end h hs hend).trans (encoded_words_to_end h' hs hend').symm
    have hrsp : (frameRun sc cap s).rsp = (frameRun sc 141 s).rsp := by
      calc (frameRun sc cap s).rsp
          = ⟨(frameRun sc cap s).rsp.err, (frameRun sc cap s).rsp.status, (frameRun sc cap s).rsp.dst⟩ := rfl
        _ = (frameRun sc 141 s).rsp := by rw [hdst, hstatus, h.err, ← h'.err]
    refine ⟨eq_of_sameBuild h.build h'.build hcursors (h.sc.trans h'.sc.symm) rfl hrsp (h.busy.trans h'.busy.symm), ?_⟩
    refine response_fields_n ?_
    rw [h.count]
    omega
  · cases (execEncode_refused hno).symm.trans hu
    exact ⟨rfl, response_fields_n (by simp [Response.n])⟩

/-! ### Sequences of calls -/

theorem send_cons {sc : ScanCode} {cap : Nat} {caps : List Nat} {s t : State}
    (ht : exec (.encode sc cap) s = .next t) :
    send sc (cap :: caps) s =
      if t.rsp.status.complete then (t.rsp.dst, t) else (t.rsp.dst ++ (send sc caps t).1, (send sc caps t).2) := by
  rw [send, ht]

/-- What SEND collects from a position and where it ends (43_frame_steps.md R160). -/
structure Sent (s : State) (sc : ScanCode) (caps : List Nat) (r : List Word × State) : Prop where
  ended : 141 ≤ s.pos + caps.sum → r.1 = (frame s sc).drop s.pos ∧ r.2.AtStart ∧ r.2.rsp.status = ⟨true, false⟩
  stopped : s.pos + caps.sum < 141 → r.1 = ((frame s sc).drop s.pos).take caps.sum ∧
    r.2.pos = s.pos + caps.sum ∧ r.2.resumable = true ∧ (caps ≠ [] → r.2.rsp.status.complete = false)

/-- A call that does not end the frame, and the calls after it. -/
theorem sent_cons {s t : State} {sc : ScanCode} {cap : Nat} {caps : List Nat} {r : List Word × State}
    (hs : s.SuffixBuilt) (h : Encoded s sc cap t) (hshort : s.pos + cap < 141) (hr : Sent t sc caps r)
    (hnone : caps = [] → r.2 = t) : Sent s sc (cap :: caps) (t.rsp.dst ++ r.1, r.2) := by
  obtain ⟨hpos, -⟩ := h.stopped hshort
  have hdst := encoded_words_to_capacity h hs hshort
  have hreach : s.pos + (cap :: caps).sum = t.pos + caps.sum := by
    rw [List.sum_cons, hpos, Nat.add_assoc]
  constructor
  · intro hend
    obtain ⟨hwords, hstart, hstatus⟩ := hr.ended (by omega)
    refine ⟨?_, hstart, hstatus⟩
    rw [hwords, hdst, frame_of_sameBuild h.build, hpos, ← List.drop_drop, List.take_append_drop]
  · intro hopen
    obtain ⟨hwords, hpos', hres, hflag⟩ := hr.stopped (by omega)
    refine ⟨?_, hpos'.trans hreach.symm, hres, fun _ => ?_⟩
    · rw [hwords, hdst, frame_of_sameBuild h.build, hpos, List.sum_cons, List.take_add, List.drop_drop]
    · by_cases hcaps : caps = []
      · rw [hnone hcaps, ← Bool.not_eq_true, encoded_complete_iff h]
        omega
      · exact hflag hcaps

/-- Chunking invariance, by the list of capacities (43_frame_steps.md R160). -/
theorem send_sent (sc : ScanCode) (caps : List Nat) {s : State} (hinv : s.Inv) (hready : s.Ready) :
    Sent s sc caps (send sc caps s) := by
  induction caps generalizing s with
  | nil =>
    have hpos := pos_le_of_inv hinv
    exact ⟨fun hend => by simp at hend; omega, fun _ => ⟨by simp [send], rfl, hinv.1, fun hne => absurd rfl hne⟩⟩
  | cons cap caps ih =>
    obtain ⟨t, ht, h⟩ := exec_encode_steady hinv hready sc cap
    obtain ⟨hinv', hready'⟩ := encoded_keeps_inv hinv hready ht
    have hs := suffixBuilt_of_inv hinv hready
    rw [send_cons ht]
    by_cases hend : 141 ≤ s.pos + cap
    · rw [if_pos ((encoded_complete_iff h).2 hend)]
      refine ⟨fun _ => ⟨encoded_words_to_end h hs hend, h.ended hend⟩, fun hshort => ?_⟩
      rw [List.sum_cons] at hshort
      omega
    · rw [if_neg fun hc => hend ((encoded_complete_iff h).1 hc)]
      exact sent_cons hs h (Nat.lt_of_not_le hend) (ih hinv' hready') fun hnil => by rw [hnil, send]

/-- Settles O39: SEND from a steady state. -/
theorem chunkingDoesNotChangeTheFrame : Obligations.ChunkingDoesNotChangeTheFrame := by
  unfold Obligations.ChunkingDoesNotChangeTheFrame
  intro sc caps s hinv hready
  have h := send_sent sc caps hinv hready
  exact ⟨h.ended, h.stopped⟩

/-- A run starts with an ENCODE at the entry point (70_reset_and_hazards.md R222). -/
theorem startsRun_iff (ops : List Instr) (s : State) :
    startsRun ops s = true ↔ s.AtStart ∧ ∃ sc cap rest, ops = .encode sc cap :: rest := by
  have hfirst : ops.head?.any isEncode = true ↔ ∃ sc cap rest, ops = .encode sc cap :: rest := by
    cases ops with
    | nil => simp
    | cons i rest => cases i <;> simp [isEncode]
  rw [startsRun, Bool.and_eq_true, hfirst, decide_eq_true_iff, and_comm]

theorem transmissionRun_eq_some_iff (ops : List Instr) (s : State) (r : List Word × RunEnd) :
    transmissionRun ops s = some r ↔ startsRun ops s = true ∧ collectRun ops s = r := by
  simp [transmissionRun]

theorem collectRun_encode {sc : ScanCode} {cap : Nat} {rest : List Instr} {s t : State}
    (ht : exec (.encode sc cap) s = .next t) (hok : t.rsp.err = .ok) :
    collectRun (.encode sc cap :: rest) s =
      if t.rsp.status.complete then (t.rsp.dst, .completed)
      else (t.rsp.dst ++ (collectRun rest t).1, (collectRun rest t).2) := by
  rw [collectRun, ht]
  simp only [hok, if_true]

/-- An instruction that is no ENCODE ends a run without a word, and not successfully (70_reset_and_hazards.md R222). -/
theorem collectRun_not_encode {i : Instr} (hi : ∀ sc cap, i ≠ .encode sc cap) (rest : List Instr) (s : State) :
    (collectRun (i :: rest) s).1 = [] ∧ (collectRun (i :: rest) s).2.successful = false := by
  obtain ⟨t, ht⟩ := exec_next i s
  rw [collectRun, ht]
  by_cases hok : t.rsp.err = .ok
  · cases i with
    | encode sc cap => exact absurd rfl (hi sc cap)
    | _ => simp [hok, RunEnd.successful]
  · simp [hok, RunEnd.successful]

/-- What a run collects from a position: a leading part of the rest of the frame, and all of it exactly when it is
successful (70_reset_and_hazards.md R222). -/
def CollectsFrom (f : List Word) (p : Nat) (r : List Word × RunEnd) : Prop :=
  r.1 <+: f.drop p ∧ (r.2.successful = true ↔ r.1 = f.drop p)

/-- A run that ends before the frame does is not successful. -/
theorem collectsFrom_nil {f : List Word} {p : Nat} (hp : p < f.length) {r : List Word × RunEnd} (hwords : r.1 = [])
    (hend : r.2.successful = false) : CollectsFrom f p r := by
  refine ⟨hwords ▸ List.nil_prefix, ?_⟩
  rw [hwords, hend]
  simp [hp, eq_comm]

theorem collectsFrom_append {f : List Word} {p n : Nat} {r : List Word × RunEnd} (h : CollectsFrom f (p + n) r) :
    CollectsFrom f p ((f.drop p).take n ++ r.1, r.2) := by
  obtain ⟨hprefix, hiff⟩ := h
  have hsplit : f.drop p = (f.drop p).take n ++ f.drop (p + n) := by
    rw [← List.drop_drop, List.take_append_drop]
  refine ⟨?_, hiff.trans ⟨fun h => by rw [h, ← hsplit], fun h => List.append_cancel_left (h.trans hsplit)⟩⟩
  conv_rhs => rw [hsplit]
  exact (List.prefix_append_right_inj _).2 hprefix

/-- A run of host operations of one ScanCode, by the list of operations (70_reset_and_hazards.md R222). -/
theorem collectRun_collectsFrom (sc : ScanCode) (ops : List Instr) {s : State} (hinv : s.Inv) (hready : s.Ready)
    (hops : ∀ i ∈ ops, ∀ sc' cap, i = .encode sc' cap → sc' = sc) :
    CollectsFrom (frame s sc) s.pos (collectRun ops s) := by
  have hinside : s.pos < (frame s sc).length := by
    have := pos_le_of_inv hinv
    rw [frame_length]
    omega
  induction ops generalizing s with
  | nil => exact collectsFrom_nil hinside rfl rfl
  | cons i rest ih =>
    obtain ⟨hhead, hrest⟩ := List.forall_mem_cons.1 hops
    by_cases hi : ∃ sc' cap, i = .encode sc' cap
    · obtain ⟨sc', cap, rfl⟩ := hi
      obtain rfl := hhead sc' cap rfl
      obtain ⟨t, ht, h⟩ := exec_encode_steady hinv hready sc' cap
      obtain ⟨hinv', hready'⟩ := encoded_keeps_inv hinv hready ht
      have hs := suffixBuilt_of_inv hinv hready
      rw [collectRun_encode ht h.err]
      by_cases hend : 141 ≤ s.pos + cap
      · rw [if_pos ((encoded_complete_iff h).2 hend), encoded_words_to_end h hs hend]
        exact ⟨List.prefix_rfl, by simp [RunEnd.successful]⟩
      · have hshort : s.pos + cap < 141 := Nat.lt_of_not_le hend
        obtain ⟨hpos, -⟩ := h.stopped hshort
        have hinside' : t.pos < (frame t sc').length := by
          rw [frame_length, hpos]
          exact hshort
        have hnext := ih hinv' hready' hrest hinside'
        rw [frame_of_sameBuild h.build, hpos] at hnext
        rw [if_neg fun hc => hend ((encoded_complete_iff h).1 hc), encoded_words_to_capacity h hs hshort]
        exact collectsFrom_append hnext
    · have hne : ∀ sc' cap, i ≠ .encode sc' cap := fun sc' cap h => hi ⟨sc', cap, h⟩
      obtain ⟨hwords, hunsuccessful⟩ := collectRun_not_encode hne rest s
      exact collectsFrom_nil hinside hwords hunsuccessful

/-- Settles O40: a run starts at position 0, so the rest of the frame is the frame. -/
theorem successfulTransmissionRunIsTheFrame : Obligations.SuccessfulTransmissionRunIsTheFrame := by
  unfold Obligations.SuccessfulTransmissionRunIsTheFrame
  refine ⟨fun ops s => ?_, fun sc ops s r hinv hready hops hr => ?_⟩
  · simp only [transmissionRun_eq_some_iff, startsRun_iff, exists_and_left, exists_eq', and_true]
  · obtain ⟨hstarts, rfl⟩ := (transmissionRun_eq_some_iff ops s r).1 hr
    obtain ⟨hstart, -⟩ := (startsRun_iff ops s).1 hstarts
    have h := collectRun_collectsFrom sc ops hinv hready fun i hi => (hops i hi).2
    rwa [pos_of_atStart hstart, CollectsFrom, List.drop_zero] at h

end Sys2Proof.Proofs
end

section
/-! The machine's own steps (log entry 1) and the invariant that they keep (10_state.md sections 1 and 7). -/

open Sys2Proof Sys2Proof.Machine Sys2Proof.Rows

namespace Sys2Proof.Proofs

theorem core_run_succ {M : Host.Core} {s t : M.State} (h : M.step s = .next t) (k : Nat) :
    M.run (k + 1) s = M.run k t := by
  rw [Host.Core.run, h]

/-- The loop of FRAME_RUN is a run of the machine's steps: one step per turn (43_frame_steps.md R141). -/
theorem run_eq_frameLoop (fuel : Nat) {s : State} (hb : s.busy = true) :
    ∃ k, k ≤ fuel ∧ Host.Core.run Sys2Proof.core k s = .next (frameLoop fuel s) := by
  induction fuel generalizing s with
  | zero => exact ⟨0, Nat.le_refl 0, rfl⟩
  | succ fuel ih =>
    have hrun : ∀ k, Host.Core.run Sys2Proof.core (k + 1) s = Host.Core.run Sys2Proof.core k (frameStep s) :=
      core_run_succ (M := Sys2Proof.core) (step_of_busy hb)
    rw [frameLoop]
    cases hbusy : (frameStep s).busy with
    | true =>
      obtain ⟨k, hk, hloop⟩ := ih hbusy
      exact ⟨k + 1, Nat.succ_le_succ hk, (hrun k).trans hloop⟩
    | false => exact ⟨1, Nat.succ_le_succ (Nat.zero_le fuel), hrun 0⟩

/-- Settles O56: an accepted ENCODE is the loop from the beginning of the call. -/
theorem encodeIsTheRunOfItsFrameSteps : Obligations.EncodeIsTheRunOfItsFrameSteps := by
  unfold Obligations.EncodeIsTheRunOfItsFrameSteps
  intro s sc cap hready hr
  obtain ⟨k, hk, hrun⟩ := run_eq_frameLoop 12 (s := s.beginCall sc cap) rfl
  exact ⟨k, hk, hrun.trans (execEncode_accepted hready hr).symm⟩

/-- Settles O50: the state after reset, evaluated. -/
theorem invariantHoldsAtReset : Obligations.InvariantHoldsAtReset := by
  unfold Obligations.InvariantHoldsAtReset
  refine ⟨rfl, rfl, ⟨rfl, rfl, rfl⟩, resumable_of_atStart ⟨rfl, rfl, rfl⟩, fun _ => ⟨rfl, rfl, rfl⟩, nofun, ?_, nofun⟩
  exact ⟨nofun, nofun, fun h => absurd rfl h, Nat.zero_le _⟩

/-- A response with no word and no flag, of any error that the block raises, is one the block gives. -/
theorem rspOk_of_empty {s : State} {e : Err} (h : s.rsp = ⟨e, Status.none, []⟩) (he : e ≠ .resourceError) :
    s.RspOk := by
  rw [State.RspOk, h]
  exact ⟨he, none_flagsExclusive, fun _ => ⟨rfl, rfl⟩, Nat.zero_le _⟩

/-- A raise keeps the invariant: it writes the response and the fault latch (60_exceptions.md R193). -/
theorem raise_keeps_inv {s : State} {e : Err} (hinv : s.Inv) (he : e ≠ .resourceError) : (s.raise e).Inv := by
  obtain ⟨hr, hstart, hprims, -, -⟩ := hinv
  refine ⟨?_, ?_, ?_, rspOk_of_empty (raise_rsp s e) he, fun hbusy => ?_⟩
  · rwa [resumable_congr (raise_cur s e) (raise_bcur s e) (raise_lcur s e)]
  · simpa [State.AtStart] using hstart
  · simpa [State.PrimsBuilt] using hprims
  · simp at hbusy

/-- A call in progress keeps the invariant over its frame step: it writes at most the symbols up to the next
position. -/
theorem frameStep_keeps_inv {s : State} (hinv : s.Inv) (hbusy : s.busy = true) : (frameStep s).Inv := by
  obtain ⟨hr, -, hprims, -, hcall⟩ := hinv
  obtain ⟨hbuilt, hfault, herr, hn⟩ := hcall hbusy
  have h := frameStep_spec s hr
  have hlt := pos_lt_stepEnd hr
  have hcount := n_of_frameStepped h
  have hbuilt' : (frameStep s).built = true := h.built.trans hbuilt
  have herr' : (frameStep s).rsp.err = .ok := h.err.trans herr
  have hflags : FlagsExclusive (frameStep s).rsp.status := by
    rcases frameStep_cases s with ⟨c, d, hstep⟩ | hraise
    · exact frameStepOf_flagsExclusive hstep
    · rw [hraise]
      exact raise_flagsExclusive s _
  refine ⟨h.resumable, fun hno => absurd (hno.symm.trans hbuilt') nofun, fun _ => ?_,
    ⟨by simp [herr'], hflags, fun hne => absurd herr' hne, by omega⟩, fun hgoes => ?_⟩
  · rw [h.tt, h.x, h.bit0, h.bit1]
    exact hprims hbuilt
  · obtain ⟨-, -, -, hpos⟩ := advanced_of_busy hr h hgoes
    exact ⟨hbuilt', h.fault.trans hfault, herr', by omega⟩

/-- An accepted NEW meets the invariant (44_host_operations.md R171). -/
theorem construct_inv (s : State) {cfg : TimingTable} (hv : validTable cfg = true) : (s.construct cfg).Inv :=
  ⟨resumable_of_atStart (construct_atStart s cfg), nofun, fun _ => ⟨narrowTable_valid hv, rfl, rfl, rfl⟩,
    rspOk_of_empty (construct_rsp s cfg) nofun, nofun⟩

/-- An accepted RESET keeps the invariant (44_host_operations.md R173). -/
theorem resetCursors_respond_keeps_inv {s : State} (hinv : s.Inv) : (s.resetCursors.respond .ok).Inv := by
  obtain ⟨-, -, hprims, -, -⟩ := hinv
  have hstart := resetCursors_respond_atStart s .ok
  exact ⟨resumable_of_atStart hstart, fun _ => hstart, hprims, rspOk_of_empty (respond_rsp _ _) nofun, nofun⟩

/-- An accepted DESTROY meets the invariant (44_host_operations.md R174). -/
theorem destroyed_inv (s : State) : (destroyed s).Inv :=
  ⟨resumable_of_atStart ⟨rfl, rfl, rfl⟩, fun _ => ⟨rfl, rfl, rfl⟩, nofun,
    rspOk_of_empty (e := .ok) rfl nofun, nofun⟩

/-- Every host operation keeps the invariant. -/
theorem host_operation_keeps_inv {i : Instr} {s t : State} (hi : IsHostOp i) (hinv : s.Inv)
    (ht : exec i s = .next t) : t.Inv := by
  rcases hi with ⟨cfg, rfl⟩ | ⟨sc, cap, rfl⟩ | rfl | rfl
  · rcases exec_new_cases ht with ⟨-, -, hv, rfl⟩ | ⟨-, -, -, rfl⟩ | ⟨-, rfl⟩
    · exact construct_inv s hv
    · exact raise_keeps_inv hinv nofun
    · exact raise_keeps_inv hinv nofun
  · by_cases hready : s.Ready
    · exact (encoded_keeps_inv hinv hready ht).1
    · cases (execEncode_refused fun h => hready h.1).symm.trans ht
      exact raise_keeps_inv hinv nofun
  · rcases exec_reset_cases ht with ⟨-, rfl⟩ | ⟨-, rfl⟩
    · exact resetCursors_respond_keeps_inv hinv
    · exact raise_keeps_inv hinv nofun
  · rcases exec_destroy_cases ht with ⟨-, rfl⟩ | ⟨-, rfl⟩
    · exact destroyed_inv s
    · exact raise_keeps_inv hinv nofun

/-- The reset input, taken between operations, keeps the invariant (70_reset_and_hazards.md R210). -/
theorem hwReset_keeps_inv {s : State} (hinv : s.Inv) (hidle : s.busy = false) (rest : List HostEvent) :
    ({ s.hwReset with inputs := rest } : State).Inv := by
  obtain ⟨-, -, -, hrsp, -⟩ := hinv
  exact ⟨resumable_of_atStart ⟨rfl, rfl, rfl⟩, fun _ => ⟨rfl, rfl, rfl⟩, nofun, hrsp,
    fun hbusy => nomatch hbusy.symm.trans hidle⟩

/-- Settles O51: by what a step is. -/
theorem everyStepKeepsTheInvariant : Obligations.EveryStepKeepsTheInvariant := by
  unfold Obligations.EveryStepKeepsTheInvariant
  intro s t hinv ht
  rcases step_cases ht with ⟨hbusy, rfl⟩ | ⟨-, c, rest, -, hexec⟩ | ⟨hidle, rest, -, rfl⟩ | rfl
  · exact frameStep_keeps_inv hinv hbusy
  · exact host_operation_keeps_inv (s := { s with inputs := rest }) (decodeCmd_isHostOp c) hinv hexec
  · exact hwReset_keeps_inv hinv hidle rest
  · exact hinv

end Sys2Proof.Proofs
end
